-- ==== Sys2Proof/Word.lean ====
section
/-! DEFINITION. The words of the machine (R8): a channel item, the Transfer Counter, a device address. -/

namespace Sys2Proof

/-- One channel item: an opcode, operand, payload or response byte (R8 `BYTE_WIDTH`). -/
abbrev Byte := BitVec 8

/-- A value of the Transfer Counter (R8 `COUNT_WIDTH`). -/
abbrev Count := BitVec 16

/-- A 7-bit device address (R8 `ADDR_WIDTH`). -/
abbrev Addr := BitVec 7

end Sys2Proof
end

