-- ==== Sys2Proof/Config.lean ====
section
/-! DEFINITION. What is fixed when the machine is constructed (R9), and the free values: what the devices on the bus
answer (R29) and which agent steps next (R100). -/

namespace Sys2Proof

/-- The three agents of R100. -/
inductive Agent where
  | engine
  | bus
  | driver
  deriving DecidableEq, Repr, Inhabited

/-- One event of the bus trace (R14): `S`, `P`, `W(b)/a`, `R(a)/b`. -/
inductive BusEvent where
  | start
  | stop
  | write (b : Byte) (ack : Bool)
  | read (ack : Bool) (b : Byte)
  deriving DecidableEq, Repr

/-- `STARVED_WRITE_MODE` (R9, R142). -/
inductive StarvedWriteMode where
  | hold
  | redecrement
  deriving DecidableEq, Repr

/-- `DEVICE_ID_TARGET_BYTE` (R9, R187). -/
inductive TargetByte where
  | addr
  | addrShifted
  deriving DecidableEq, Repr

/-- The parameters of R9. A depth of `none` is an unbounded channel. -/
structure Params where
  /-- `COUNT_RESET` (OPEN, D4). -/
  countReset : Count
  /-- `STARVED_WRITE_MODE` (D6). -/
  starvedWrite : StarvedWriteMode
  /-- `OUT_DEPTH` (OPEN, D9). -/
  outDepth : Option Nat
  /-- `IN_DEPTH` (OPEN, D9). -/
  inDepth : Option Nat
  /-- `DEVICE_ID_WRITE_STOP` (D11). -/
  deviceIdWriteStop : Bool
  /-- `DEVICE_ID_READ_STOP` (D11). -/
  deviceIdReadStop : Bool
  /-- `DEVICE_ID_TARGET_BYTE` (D13). -/
  deviceIdTarget : TargetByte
  /-- `BUS_DIVIDER` (OPEN, D28): read by no rule. -/
  busDivider : Nat
  deriving DecidableEq, Repr

namespace Config

/-- The parameters `State.reset` is constructed with: the defaults R9 gives; for the OPEN ones a counter of 0
(DESIGN CHOICE, unsafe, log 5), unbounded channels and a divider of 0 (DESIGN CHOICE, unsafe, log 8). -/
def params : Params where
  countReset := 0
  starvedWrite := .hold
  outDepth := none
  inDepth := none
  deviceIdWriteStop := false
  deviceIdReadStop := true
  deviceIdTarget := .addr
  busDivider := 0

/-- `AckOracle(blog, b)` (R9, R29 item 3): whether byte `b` written after the trace `blog` is acknowledged.
A free value (log 4). -/
opaque ackOracle : List BusEvent → Byte → Bool

/-- `ReadOracle(blog, a)` (R9, R29 item 3): the byte a read with acknowledgement `a` receives after the trace `blog`.
A free value, never assumed 0xFF (R165; log 4). -/
opaque readOracle : List BusEvent → Bool → Byte

/-- Which agent takes the step number `n`, where nothing outside fixed it (R100 "in any order"). A free value (log 1). -/
opaque schedule : Nat → Agent

end Config

end Sys2Proof
end

