-- ==== Sys2Proof/Syntax.lean ====
section
/-! DEFINITION. The five instructions of the opcode table (R2, R81). -/

namespace Sys2Proof

/-- One constructor per row of the opcode table. WRITE and READ have no operand of their own: they take their length from
the Transfer Counter, and WRITE's payload is taken from the stream as it is needed (R83, R85). -/
inductive Instr where
  /-- START, 0x01 (R121). -/
  | start
  /-- STOP, 0x02 (R122). -/
  | stop
  /-- SET-COUNT, 0x03 with a 16-bit operand, 0 to 65535 (R83, R130). -/
  | setCount (n : Nat)
  /-- WRITE, 0x04 (R140). -/
  | write
  /-- READ, 0x05 (R160). -/
  | read
  deriving DecidableEq, Repr

end Sys2Proof
end

