-- ==== Sys2Proof/WellFormed.lean ====
section
/-! DEFINITION. The checks on an instruction's operand (R83, R89) and on the construction parameters (R9). -/

namespace Sys2Proof

/-- SET-COUNT's operand is 0 to 65535 (R83); no other instruction has an operand. -/
def Instr.wf : Instr → Bool
  | .start => true
  | .stop => true
  | .setCount n => n < 65536
  | .write => true
  | .read => true

/-- Each channel holds at least one byte (R9: "1 to unbounded"). -/
def Params.wf (p : Params) : Bool :=
  p.outDepth != some 0 && p.inDepth != some 0

end Sys2Proof
end

