-- ==== Sys2Proof/Decode.lean ====
section
/-! DEFINITION. The decoder of the opcode stream (R80 to R86), and after it the encoder. -/

namespace Sys2Proof

/-- What the first bytes of a stream are. -/
inductive Decoded where
  /-- An instruction, and the bytes after its opcode and operand. -/
  | instr (i : Instr) (rest : List Byte)
  /-- No instruction: a byte outside 0x01 to 0x05 in opcode position, which the Engine consumes and ignores (R86, R103). -/
  | ignored (b : Byte) (rest : List Byte)
  /-- The stream ends inside the opcode or the operand: the Engine waits for the next byte (R104, R133 (d)). -/
  | incomplete
  deriving DecidableEq, Repr

/-- Bits 15 to 8 of a counter value. -/
def countHi (c : Count) : Byte := (c >>> 8).setWidth 8

/-- Bits 7 to 0 of a counter value; `trunc_8` of R10. -/
def countLo (c : Count) : Byte := c.setWidth 8

/-- Operand assembly, high byte first: `hi * 256 + lo` (R83). -/
def countOperand (hi lo : Byte) : Nat := hi.toNat * 256 + lo.toNat

/-- The opcode map (R81), the operand of SET-COUNT (R83) and the ignored values (R86). Payload bytes of WRITE are not
decoded: they are part of the rest (R84, R85). -/
def decode : List Byte → Decoded
  | [] => .incomplete
  | b :: rest =>
    if b = 0x01 then .instr .start rest
    else if b = 0x02 then .instr .stop rest
    else if b = 0x03 then
      match rest with
      | hi :: lo :: rest => .instr (.setCount (countOperand hi lo)) rest
      | _ => .incomplete
    else if b = 0x04 then .instr .write rest
    else if b = 0x05 then .instr .read rest
    else .ignored b rest

/-- The bytes of an instruction's opcode and operand (R81, R82), in stream order. -/
def encode : Instr → List Byte
  | .start => [0x01]
  | .stop => [0x02]
  | .setCount n => [0x03, BitVec.ofNat 8 (n / 256), BitVec.ofNat 8 (n % 256)]
  | .write => [0x04]
  | .read => [0x05]

/-- The bytes of a word of the opcode table: the lowest eight bits are the first byte of the stream, bits above `nbits`
are 0, and the longest instruction has three bytes (R82). -/
def tableBytes (nbits w : Nat) : List Byte :=
  let v := w % 2 ^ nbits
  [BitVec.ofNat 8 v, BitVec.ofNat 8 (v / 256), BitVec.ofNat 8 (v / 65536)]

/-- The instruction the decoder reads from a word of the opcode table. -/
def decodeTableWord (nbits w : Nat) : Option Instr :=
  match decode (tableBytes nbits w) with
  | .instr i _ => some i
  | .ignored _ _ => none
  | .incomplete => none

end Sys2Proof
end

