-- ==== Sys2Proof/Machine/State.lean ====
section
/-! DEFINITION. The state of the whole system (R31): Engine registers (R20), channels (R51, R52), Bus Primitive (R28),
Driver program state (R32, R180), the construction parameters (R9), and the inputs from outside. -/

namespace Sys2Proof
namespace Machine

/-- The nine states of the Engine (R21); an abstract enumeration (D22). -/
inductive FsmState where
  | idle
  | decode
  | countHigh
  | countLow
  | writeFirst
  | write
  | report
  | readFirst
  | read
  deriving DecidableEq, Repr

/-- The operation in flight on the Bus Primitive (R28 `bpend`). -/
inductive BusOp where
  | start
  | stop
  | write (b : Byte)
  | read (ack : Bool)
  deriving DecidableEq, Repr

/-- A call as the host makes it, before admission (R181, R191): any numbers (log 15). -/
inductive Call where
  | write (addr : Nat) (data : List Nat) (stop : Bool)
  | read (addr size : Nat) (stop : Bool)
  | poll (addr : Nat)
  | deviceId (addr : Nat)
  deriving DecidableEq, Repr

/-- Why a call is not admitted: one row each of R181's table. -/
inductive RefuseReason where
  /-- `addr` is not 0 to 127. -/
  | addr
  /-- Some `data[i]` is not 0 to 255. -/
  | dataByte
  /-- `len(data)` is not 0 to 65534. -/
  | dataLength
  /-- `size` is not 0 to 65535. -/
  | size
  deriving DecidableEq, Repr

/-- An admitted call: arguments inside the domains of R181. -/
inductive Op where
  | write (addr : Addr) (data : List Byte) (stop : Bool)
  | read (addr : Addr) (size : Count) (stop : Bool)
  | poll (addr : Addr)
  | deviceId (addr : Addr)
  deriving DecidableEq, Repr

/-- The one or two transactions of a call: `device_id` has two, its write and its read (R187). -/
inductive Stage where
  | first
  | second
  deriving DecidableEq, Repr

/-- A Driver call in progress: "its arguments, its position in the byte sequence it is emitting or reading, and the bytes
read so far" (R32). -/
structure Job where
  op : Op
  stage : Stage
  /-- How many outbound bytes of the running transaction have been pushed. -/
  pos : Nat
  /-- The inbound bytes of the running transaction popped so far. -/
  got : List Byte
  deriving DecidableEq, Repr

/-- The decoded Device-ID response (R188). -/
structure DeviceId where
  manufacturer : BitVec 12
  partIdent : BitVec 9
  revision : BitVec 3
  deriving DecidableEq, Repr

/-- What a call returns (R182, R184, R186, R187). -/
inductive Result where
  | write (ok : Bool)
  | read (data : Option (List Byte))
  | poll (ok : Bool)
  | deviceId (id : Option DeviceId)
  deriving DecidableEq, Repr

/-- No constructor: no rule of the Engine or the Driver raises an exception, fault or trap, and no behaviour of the block is
a fault (R220, R228; log 19). -/
inductive Fault where
  deriving DecidableEq, Repr

/-- Why a step has no meaning. -/
inductive Refusal where
  /-- Raised by an arm of `exec` whose instruction has no meaning yet (safe). No arm raises it. -/
  | notModelled (mnemonic : String)
  deriving DecidableEq, Repr

/-- The system state (R31). -/
structure State where
  /-- The construction parameters (R9); no step writes them. -/
  par : Params
  /-- The FSM state register (R21). -/
  st : FsmState
  /-- The Transfer Counter (R22). -/
  count : Count
  /-- The opcode latch (R23). -/
  op : Byte
  /-- The ghost count of outbound bytes consumed (R25, D27): not hardware state (log 17). -/
  consumed : Nat
  /-- The outbound channel, head first (R51). -/
  outq : List Byte
  /-- The inbound channel, head first (R52). -/
  inq : List Byte
  /-- The `busy` level of the Bus Primitive (R28). -/
  bbusy : Bool
  /-- The bus operation in flight (R28). -/
  bpend : Option BusOp
  /-- `ack_received` of the last completed write (R28). -/
  back : Bool
  /-- `byte_received` of the last completed read (R28). -/
  bbyte : Byte
  /-- The bus trace, oldest event first (R28, R14). -/
  blog : List BusEvent
  /-- Calls the host has made and the Driver has not taken up, oldest first (R191). An input. -/
  calls : List Call
  /-- The call in progress (R32, R190). -/
  job : Option Job
  /-- The results of the calls that have returned, oldest first (R252). -/
  results : List Result
  /-- Set for good by a refused call (R227). -/
  refusal : Option RefuseReason
  /-- The agents of the next turns, where they are fixed from outside (R100). An input (log 1). -/
  turns : List Agent
  /-- How many steps have been taken: the argument of the free schedule (log 1). -/
  tick : Nat
  /-- The acknowledgements the devices give next, where they are fixed from outside (R9). An input (log 4). -/
  acks : List Bool
  /-- The bytes the devices send next, where they are fixed from outside (R9). An input (log 4). -/
  reads : List Byte
  deriving DecidableEq, Repr

/-- The machine after reset, constructed with the parameters `p` (R35, R240). `op`, `back` and `bbyte` are unspecified and
unobservable there: 0, false and 0 are DESIGN CHOICES (logs 6 and 7). -/
def State.resetWith (p : Params) : State where
  par := p
  st := .idle
  count := p.countReset
  op := 0
  consumed := 0
  outq := []
  inq := []
  bbusy := false
  bpend := none
  back := false
  bbyte := 0
  blog := []
  calls := []
  job := none
  results := []
  refusal := none
  turns := []
  tick := 0
  acks := []
  reads := []

/-- The machine after reset (R35, R240), with the parameters of `Config.params`. -/
def State.reset : State := State.resetWith Config.params

end Machine
end Sys2Proof
end

