-- ==== Sys2Proof/Machine/Ops.lean ====
section
/-! DEFINITION. The primitives of R12 over the channels and the Bus Primitive. The Engine has no memory, no register file
and no exception entry (R24, R50, R226), so these are all the shared operations there are. -/

namespace Sys2Proof
namespace Machine

/-- Whether a channel of the given depth has room for one more byte (R54, R55). -/
def hasRoom (depth : Option Nat) (q : List Byte) : Bool :=
  match depth with
  | none => true
  | some d => q.length < d

/-- `OutPop()` with its precondition `OutAvail()` (R54): the head of the outbound channel and the state without it; `none`
where the channel is empty. The ghost count of consumed bytes advances by one (R25). -/
def State.popOut (s : State) : Option (Byte × State) :=
  match s.outq with
  | [] => none
  | b :: rest => some (b, { s with outq := rest, consumed := s.consumed + 1 })

/-- `InPush(b)` (R54). -/
def State.pushIn (s : State) (b : Byte) : State :=
  { s with inq := s.inq ++ [b] }

/-- `OutPush(b)` once there is room (R55). -/
def State.pushOut (s : State) (b : Byte) : State :=
  { s with outq := s.outq ++ [b] }

/-- A strobe of the Bus Primitive: `bbusy` and `bpend` are set in the same step (R29 item 2). -/
def State.strobe (s : State) (o : BusOp) : State :=
  { s with bbusy := true, bpend := some o }

/-- The Engine moves to the FSM state `f` (R11 `st <- f`). -/
def State.goto (s : State) (f : FsmState) : State :=
  { s with st := f }

end Machine
end Sys2Proof
end

