-- ==== Sys2Proof/Machine/BusAgent.lean ====
section
/-! DEFINITION. The Bus agent: the Bus Primitive with the devices behind it (R28 to R30). -/

namespace Sys2Proof
namespace Machine

/-- The acknowledgement of byte `b`: the next one fixed from outside, else the oracle's (R29 item 3, log 4). -/
def State.drawAck (s : State) (b : Byte) : Bool :=
  s.acks.headD (Config.ackOracle s.blog b)

/-- The byte received by a read with acknowledgement `a`: the next one fixed from outside, else the oracle's (R29 item 3,
log 4). -/
def State.drawByte (s : State) (a : Bool) : Byte :=
  s.reads.headD (Config.readOracle s.blog a)

/-- What the completion of an operation does to the trace and the Primitive's outputs (R29 item 3). -/
def State.complete (s : State) : BusOp → State
  | .start => { s with blog := s.blog ++ [.start] }
  | .stop => { s with blog := s.blog ++ [.stop] }
  | .write b =>
    { s with back := s.drawAck b, blog := s.blog ++ [.write b (s.drawAck b)], acks := s.acks.tail }
  | .read a =>
    { s with bbyte := s.drawByte a, blog := s.blog ++ [.read a (s.drawByte a)], reads := s.reads.tail }

/-- The Bus Primitive is idle again (R29 item 3). -/
def State.busDone (s : State) : State :=
  { s with bbusy := false, bpend := none }

/-- A step of the Bus agent: the operation in flight completes; nothing happens where the bus is idle (R29 item 3). Busy with
nothing in flight, which no run reaches, only ends (log 18). -/
def busStep (s : State) : State :=
  if s.bbusy then
    match s.bpend with
    | some o => (s.complete o).busDone
    | none => s.busDone
  else s

end Machine
end Sys2Proof
end

