-- ==== Sys2Proof/Machine/Assembler.lean ====
section
/-! DEFINITION. The opcode-stream notation of R89, in which the Driver's expansions are written (R90). -/

namespace Sys2Proof
namespace Machine

/-- One statement of the notation (R89). -/
inductive Stmt where
  | start
  | stop
  | setCount (n : Nat)
  | write (payload : List Byte)
  | read
  | byte (b : Byte)
  deriving DecidableEq, Repr

/-- The bytes of a statement (R89). -/
def Stmt.bytes : Stmt → List Byte
  | .start => encode .start
  | .stop => encode .stop
  | .setCount n => encode (.setCount n)
  | .write payload => encode .write ++ payload
  | .read => encode .read
  | .byte b => [b]

/-- The bytes of a stream (R14, R89). -/
def assemble (p : List Stmt) : List Byte := p.flatMap Stmt.bytes

end Machine
end Sys2Proof
end

