-- ==== Sys2Proof/Machine/Flags.lean ====
section
/-! DEFINITION. The Engine has no flags (R26). These are the conditions its transitions test, each on the state before
the step. -/

namespace Sys2Proof
namespace Machine

/-- `count == 0` (R102, R162). -/
def State.countIsZero (s : State) : Bool := s.count == 0

/-- `count == 1` (R142, R161, R162). -/
def State.countIsOne (s : State) : Bool := s.count == 1

/-- `OutAvail()` (R54). -/
def State.outAvail (s : State) : Bool := !s.outq.isEmpty

/-- `InReady()` (R54). -/
def State.inReady (s : State) : Bool := hasRoom s.par.inDepth s.inq

/-- Whether the Driver's `OutPush` completes (R55). -/
def State.outRoom (s : State) : Bool := hasRoom s.par.outDepth s.outq

end Machine
end Sys2Proof
end

