-- ==== Sys2Proof/Machine/Operands.lean ====
section
/-! DEFINITION. The multi-byte and packed values of the protocol: the two halves of the counter (R131, R132), the address
byte (R182, R184), the Device-ID target byte (R187) and the Device-ID response (R188). -/

namespace Sys2Proof
namespace Machine

/-- `count[15:8] <- b` (R131): the low byte stays. -/
def withCountHi (c : Count) (b : Byte) : Count := b ++ countLo c

/-- `(addr << 1) | rw`, `rw` 1 for a read (R182, R184). -/
def addrByte (a : Addr) (rw : Bool) : Byte :=
  (a.setWidth 8 <<< 1) ||| (if rw then 1 else 0)

/-- The 7-bit address of the Device-ID protocol (R8 `DEVICE_ID_ADDR`). -/
def deviceIdAddr : Addr := 0b1111100

/-- The payload byte of the Device-ID write (R187, `DEVICE_ID_TARGET_BYTE`). -/
def targetByte (p : Params) (a : Addr) : Byte :=
  match p.deviceIdTarget with
  | .addr => a.setWidth 8
  | .addrShifted => a.setWidth 8 <<< 1

/-- `DeviceIdDecode([b0, b1, b2])` (R188). -/
def deviceIdDecode (b0 b1 b2 : Byte) : DeviceId where
  manufacturer := (((b0.setWidth 16 <<< 8) ||| b1.setWidth 16) >>> 4).setWidth 12
  partIdent := ((b1 &&& 0x0F).setWidth 9 <<< 5) ||| (b2 >>> 3).setWidth 9
  revision := (b2 &&& 0x07).setWidth 3

end Machine
end Sys2Proof
end

