-- ==== Sys2Proof/Machine/Driver.lean ====
section
/-! DEFINITION. The Transaction Driver (R180 to R195): admission, the opcode sequencer and the response interpreter. -/

namespace Sys2Proof
namespace Machine

/-- A `write` or `read` with its arguments: what every call is made of (R186, R187). -/
inductive Txn where
  | write (addr : Addr) (data : List Byte) (stop : Bool)
  | read (addr : Addr) (size : Count) (stop : Bool)
  deriving DecidableEq, Repr

/-- An address argument: 0 to 127 (R181). -/
def admitAddr (addr : Nat) : Except RefuseReason Addr :=
  if addr < 128 then .ok (BitVec.ofNat 7 addr) else .error .addr

/-- A data argument: bytes, at most 65534 of them (R181, C4). -/
def admitData (data : List Nat) : Except RefuseReason (List Byte) :=
  if data.any (fun b => 256 ≤ b) then .error .dataByte
  else if 65535 ≤ data.length then .error .dataLength
  else .ok (data.map (BitVec.ofNat 8))

/-- A size argument: 0 to 65535 (R181). -/
def admitSize (size : Nat) : Except RefuseReason Count :=
  if size < 65536 then .ok (BitVec.ofNat 16 size) else .error .size

/-- Admission of a call's arguments (R181), in the order of its table (log 14). -/
def admitCall : Call → Except RefuseReason Op
  | .write addr data stop =>
    match admitAddr addr, admitData data with
    | .error r, _ => .error r
    | .ok _, .error r => .error r
    | .ok a, .ok d => .ok (.write a d stop)
  | .read addr size stop =>
    match admitAddr addr, admitSize size with
    | .error r, _ => .error r
    | .ok _, .error r => .error r
    | .ok a, .ok n => .ok (.read a n stop)
  | .poll addr =>
    match admitAddr addr with
    | .error r => .error r
    | .ok a => .ok (.poll a)
  | .deviceId addr =>
    match admitAddr addr with
    | .error r => .error r
    | .ok a => .ok (.deviceId a)

/-- `[STOP]`: present only where `stop` is true (R90). -/
def stopStmts (stop : Bool) : List Stmt := if stop then [.stop] else []

/-- The expansion of a `write` (R182) or a `read` (R184). -/
def Txn.stmts : Txn → List Stmt
  | .write addr data stop =>
    [.start, .setCount (1 + data.length), .write (addrByte addr false :: data)] ++ stopStmts stop
  | .read addr size stop =>
    [.start, .setCount 1, .write [addrByte addr true], .setCount size.toNat, .read] ++ stopStmts stop

/-- The outbound bytes of a transaction (R182, R184). -/
def Txn.bytes (t : Txn) : List Byte := assemble t.stmts

/-- How many inbound bytes a transaction pops: the status byte, and `size` data bytes for a read (R193). -/
def Txn.inbound : Txn → Nat
  | .write _ _ _ => 1
  | .read _ size _ => 1 + size.toNat

/-- The transaction a call is at (R182, R184, R186, R187). -/
def Job.txn (p : Params) (j : Job) : Txn :=
  match j.op, j.stage with
  | .write addr data stop, _ => .write addr data stop
  | .read addr size stop, _ => .read addr size stop
  | .poll addr, _ => .write addr [] true
  | .deviceId addr, .first => .write deviceIdAddr [targetByte p addr] p.deviceIdWriteStop
  | .deviceId _, .second => .read deviceIdAddr 3 p.deviceIdReadStop

/-- A call at its start. -/
def Job.init (op : Op) : Job where
  op := op
  stage := .first
  pos := 0
  got := []

/-- How a transaction ends: the call returns, or goes on with its second transaction. -/
inductive Finish where
  | done (r : Result)
  | again (j : Job)
  deriving DecidableEq, Repr

/-- The status byte is `00` (R183, R185, R195). -/
def statusOk (got : List Byte) : Bool := got.head? == some 0

/-- The Device-ID response of the data bytes of a read of three (R187, R188). -/
def deviceIdOf : List Byte → Option DeviceId
  | [b0, b1, b2] => some (deviceIdDecode b0 b1 b2)
  | _ => none

/-- The response interpreter, on all the inbound bytes of the running transaction (R183, R185, R186, R187). -/
def Job.finish (j : Job) (got : List Byte) : Finish :=
  match j.op, j.stage with
  | .write _ _ _, _ => .done (.write (statusOk got))
  | .read _ _ _, _ => .done (.read (if statusOk got then some got.tail else none))
  | .poll _, _ => .done (.poll (statusOk got))
  | .deviceId addr, .first =>
    if statusOk got then .again { op := .deviceId addr, stage := .second, pos := 0, got := [] }
    else .done (.deviceId none)
  | .deviceId _, .second => .done (.deviceId (if statusOk got then deviceIdOf got.tail else none))

/-- What follows the pop of an inbound byte (R182, R184): pop on, or finish; `got` holds the byte just popped too. -/
def afterPop (s : State) (j : Job) (got : List Byte) : State :=
  if got.length < (j.txn s.par).inbound then { s with job := some { j with got := got } }
  else
    match j.finish got with
    | .done r => { s with job := none, results := s.results ++ [r] }
    | .again j' => { s with job := some j' }

/-- The one byte the call `j` moves next: push the next outbound byte, or pop an inbound byte once all are pushed (R55,
R180). `none` where it is suspended. -/
def jobMove (s : State) (j : Job) : Option State :=
  match (j.txn s.par).bytes[j.pos]? with
  | some b =>
    if s.outRoom then some { s.pushOut b with job := some { j with pos := j.pos + 1 } } else none
  | none =>
    match s.inq with
    | [] => none
    | b :: rest => some (afterPop { s with inq := rest } j (j.got ++ [b]))

/-- What the Driver does next, if it can move: go on with the call in progress, or take up the next call of the host. A call
that is not admitted moves no byte and marks the run refused (R227); an admitted one pushes its first byte (log 13). -/
def driverMove (s : State) : Option State :=
  match s.job with
  | some j => jobMove s j
  | none =>
    match s.calls with
    | [] => none
    | c :: rest =>
      match admitCall c with
      | .error r => some { s with calls := rest, refusal := s.refusal.or (some r) }
      | .ok op => jobMove { s with calls := rest } (Job.init op)

/-- A step of the Driver; a suspended Driver leaves the state as it is (R55, log 2). -/
def driverStep (s : State) : State := (driverMove s).getD s

end Machine
end Sys2Proof
end

