-- ==== Sys2Proof/Machine/BusConditions.lean ====
section
/-! DEFINITION. START and STOP (R120 to R123). -/

namespace Sys2Proof
namespace Machine

/-- START (R121), in DECODE: strobe `start`, then IDLE. -/
def execStart (s : State) : Host.Outcome State Fault Refusal :=
  .next ((s.strobe .start).goto .idle)

/-- STOP (R122), in DECODE: strobe `stop`, then IDLE. -/
def execStop (s : State) : Host.Outcome State Fault Refusal :=
  .next ((s.strobe .stop).goto .idle)

end Machine
end Sys2Proof
end

