-- ==== Sys2Proof/Machine/Read.lean ====
section
/-! DEFINITION. READ (R160 to R165): DECODE and the states READ_FIRST and READ. -/

namespace Sys2Proof
namespace Machine

/-- DECODE of opcode 0x05 (R160): a no-op where the counter is 0. -/
def readDecode (s : State) : State :=
  s.goto (if s.countIsZero then .idle else .readFirst)

/-- Request one byte: acknowledge it unless it is the last one, and decrement the counter (R161, R162). -/
def requestByte (s : State) : State :=
  { s with count := s.count - 1 }.strobe (.read (!s.countIsOne))

/-- State READ_FIRST (R161). -/
def readFirstStep (s : State) : State := (requestByte s).goto .read

/-- State READ (R162). -/
def readStep (s : State) : State :=
  if !s.bbusy && s.inReady then
    let s1 := s.pushIn s.bbyte
    if s.countIsZero then s1.goto .idle else requestByte s1
  else s

/-- READ (R160): the Engine step it takes in the FSM state at hand. In a state that is not one of its own it is decoded
(log 11). -/
def execRead (s : State) : Host.Outcome State Fault Refusal :=
  .next
    (match s.st with
    | .readFirst => readFirstStep s
    | .read => readStep s
    | _ => readDecode s)

end Machine
end Sys2Proof
end

