-- ==== Sys2Proof/Machine/SetCount.lean ====
section
/-! DEFINITION. SET-COUNT (R130 to R134). -/

namespace Sys2Proof
namespace Machine

/-- SET-COUNT `n` (R130), run by the step that has popped its last operand byte (R132, log 10): the counter is `n`, and the
Engine is in IDLE. -/
def execSetCount (n : Nat) (s : State) : Host.Outcome State Fault Refusal :=
  .next ({ s with count := BitVec.ofNat 16 n }.goto .idle)

/-- DECODE of opcode 0x03, whose operand has not been taken yet (R102, R130). -/
def setCountDecode (s : State) : State := s.goto .countHigh

/-- State COUNT_HIGH (R131). -/
def countHighStep (s : State) : State :=
  match s.popOut with
  | none => s
  | some (b, s1) => { s1 with count := withCountHi s1.count b }.goto .countLow

end Machine
end Sys2Proof
end

