-- ==== Sys2Proof/Machine/Write.lean ====
section
/-! DEFINITION. WRITE (R140 to R148): DECODE and the states WRITE_FIRST, WRITE and REPORT. -/

namespace Sys2Proof
namespace Machine

/-- DECODE of opcode 0x04 (R140): a no-op where the counter is 0. -/
def writeDecode (s : State) : State :=
  s.goto (if s.countIsZero then .idle else .writeFirst)

/-- State WRITE_FIRST (R141). -/
def writeFirstStep (s : State) : State :=
  match s.popOut with
  | none => s
  | some (b, s1) => (s1.strobe (.write b)).goto .write

/-- State WRITE with the last byte acknowledged, more to send and no byte to send (R142): wait, or decrement again, as
`STARVED_WRITE_MODE` says. -/
def starvedStep (s : State) : State :=
  match s.par.starvedWrite with
  | .hold => s
  | .redecrement => { s with count := s.count - 1 }

/-- State WRITE (R142). -/
def writeStep (s : State) : State :=
  if s.bbusy then s
  else if !s.back || s.countIsOne then
    { s with count := if s.back then s.count - 1 else s.count }.goto .report
  else
    match s.popOut with
    | some (b, s1) => { s1 with count := s1.count - 1 }.strobe (.write b)
    | none => starvedStep s

/-- State REPORT (R143): the low byte of the counter. -/
def reportStep (s : State) : State :=
  if s.inReady then (s.pushIn (countLo s.count)).goto .idle else s

/-- WRITE (R140): the Engine step it takes in the FSM state at hand. In a state that is not one of its own it is decoded
(log 11). -/
def execWrite (s : State) : Host.Outcome State Fault Refusal :=
  .next
    (match s.st with
    | .writeFirst => writeFirstStep s
    | .write => writeStep s
    | .report => reportStep s
    | _ => writeDecode s)

end Machine
end Sys2Proof
end

