-- ==== Sys2Proof/Machine/Engine.lean ====
section
/-! DEFINITION. The Engine's step: fetch in IDLE, byte-serial decoding, and the instruction in progress (R100 to R108). -/

namespace Sys2Proof
namespace Machine

/-- State IDLE (R101): take the next opcode once the bus is idle. -/
def idleStep (s : State) : State :=
  if s.bbusy then s
  else
    match s.popOut with
    | none => s
    | some (b, s1) => { s1 with op := b }.goto .decode

/-- State DECODE (R102): run the decoded instruction; go and take SET-COUNT's operand; drop a byte that is no opcode
(R103). -/
def decodeStep (s : State) : Host.Outcome State Fault Refusal :=
  match decode [s.op] with
  | .instr i _ => exec i s
  | .incomplete => .next (setCountDecode s)
  | .ignored _ _ => .next (s.goto .idle)

/-- State COUNT_LOW (R132): the operand is complete, and SET-COUNT runs with it. -/
def countLowStep (s : State) : Host.Outcome State Fault Refusal :=
  match s.popOut with
  | none => .next s
  | some (lo, s1) => exec (.setCount (countOperand (countHi s1.count) lo)) s1

/-- One Engine step (R100). A state whose guard is false leaves the state as it is (R104, log 2). -/
def engineStep (s : State) : Host.Outcome State Fault Refusal :=
  match s.st with
  | .idle => .next (idleStep s)
  | .decode => decodeStep s
  | .countHigh => .next (countHighStep s)
  | .countLow => countLowStep s
  | .writeFirst => exec .write s
  | .write => exec .write s
  | .report => exec .write s
  | .readFirst => exec .read s
  | .read => exec .read s

/-- Put an instruction's word where the next step runs it: the opcode in the latch with the Engine in DECODE; for SET-COUNT
the high operand byte in the counter, the low one at the head of the outbound channel and the Engine in COUNT_LOW. The next
turn is the Engine's (log 12). -/
def placeWord (s : State) (nbits w : Nat) : State :=
  let bytes := tableBytes nbits w
  let t := { s with op := bytes.headD 0, turns := .engine :: s.turns }
  match decode bytes with
  | .instr (.setCount n) _ =>
    { t with st := .countLow,
             count := withCountHi s.count (BitVec.ofNat 8 (n / 256)),
             outq := BitVec.ofNat 8 (n % 256) :: s.outq }
  | _ => { t with st := .decode }

end Machine
end Sys2Proof
end

