-- ==== Sys2Proof/Machine/Schedule.lean ====
section
/-! DEFINITION. Whose step it is (R100: "an interleaving of their steps in any order"), and that agent's step. -/

namespace Sys2Proof
namespace Machine

/-- The agent that steps next: the one fixed from outside, else the free schedule's (log 1). -/
def State.turn (s : State) : Agent := s.turns.headD (Config.schedule s.tick)

/-- One turn is used up. -/
def State.advance (s : State) : State :=
  { s with turns := s.turns.tail, tick := s.tick + 1 }

/-- The step of one agent (R100). -/
def agentStep (a : Agent) (s : State) : Host.Outcome State Fault Refusal :=
  match a with
  | .engine => engineStep s
  | .bus => .next (busStep s)
  | .driver => .next (driverStep s)

end Machine
end Sys2Proof
end

