-- ==== Sys2Proof/Machine/Step.lean ====
section
/-! DEFINITION. One step of the system (R100), and how a word of the opcode table is put before it. -/

namespace Sys2Proof
namespace Machine

/-- One atomic step of one agent (R59, R100). -/
def step (s : State) : Host.Outcome State Fault Refusal :=
  agentStep s.turn s.advance

/-- `s` with the instruction of a word of the opcode table where the next step runs it (log 12). -/
def State.withFetchWord (s : State) (nbits w : Nat) : State := placeWord s nbits w

end Machine
end Sys2Proof
end

