-- ==== Sys2Proof/Safety.lean ====
section
/-! DEFINITION. The terms claims are stated in: enabled steps and the end of a run (R104, R252), the clean entry (R241), the
invariants (R33, R34, R53), the transition table (R106) and what one step moves (R107). -/

namespace Sys2Proof
namespace Machine

/-! ## Enabled steps and the end of a run -/

/-- The Engine's guard holds: it does not hold in its state (R104, R106). -/
def State.engineEnabled (s : State) : Bool :=
  match s.st with
  | .idle => !s.bbusy && s.outAvail
  | .decode => true
  | .countHigh => s.outAvail
  | .countLow => s.outAvail
  | .writeFirst => s.outAvail
  | .write =>
    !s.bbusy && (!s.back || s.countIsOne || s.outAvail || s.par.starvedWrite == .redecrement)
  | .report => s.inReady
  | .readFirst => true
  | .read => !s.bbusy && s.inReady

/-- The agent has an enabled step (R29 item 3, R55, R104). -/
def State.enabled (s : State) : Agent → Bool
  | .engine => s.engineEnabled
  | .bus => s.bbusy
  | .driver => (driverMove s).isSome

/-- No agent has an enabled step (R252). -/
def State.halted (s : State) : Bool :=
  !s.enabled .engine && !s.enabled .bus && !s.enabled .driver

/-- No call in progress, none waiting, Engine in IDLE, channels empty, bus idle (R252). -/
def State.settled (s : State) : Bool :=
  s.job.isNone && s.calls.isEmpty && s.st == .idle && s.outq.isEmpty && s.inq.isEmpty && !s.bbusy

/-- The run is over (R252). -/
def State.runOver (s : State) : Bool := s.halted && s.settled

/-- The run is stuck: no agent can step and it is not over (R252). -/
def State.runStuck (s : State) : Bool := s.halted && !s.settled

/-- The clean entry of a Driver call (R241). -/
def State.cleanEntry (s : State) : Prop :=
  s.st = .idle ∧ s.outq = [] ∧ s.inq = [] ∧ s.bbusy = false ∧ s.job = none ∧ s.refusal = none

/-! ## Invariants -/

/-- Busy exactly while an operation is in flight (R29 items 2 and 3). -/
def State.busInv (s : State) : Prop := s.bbusy = s.bpend.isSome

/-- While an operation is in flight the Engine is in IDLE, state WRITE or READ (R33), with a condition, a write or a read in
flight respectively. -/
def State.flightInv (s : State) : Prop :=
  ∀ o, s.bpend = some o →
    match o with
    | .start => s.st = .idle
    | .stop => s.st = .idle
    | .write _ => s.st = .write
    | .read _ => s.st = .read

/-- R33: if the bus is busy then the Engine is in IDLE, state WRITE or READ. -/
def State.busyInv (s : State) : Prop :=
  s.bbusy = true → s.st = .idle ∨ s.st = .write ∨ s.st = .read

/-- R34 (a), (b): the counter is at least 1 in WRITE_FIRST, state WRITE and READ_FIRST. -/
def State.counterInv (s : State) : Prop :=
  s.st = .writeFirst ∨ s.st = .write ∨ s.st = .readFirst → s.count ≠ 0

/-- Neither channel holds more than its capacity (R53). -/
def fits (depth : Option Nat) (q : List Byte) : Prop := ∀ d, depth = some d → q.length ≤ d

/-- Both channels are within their capacities (R53). -/
def State.channelInv (s : State) : Prop :=
  fits s.par.outDepth s.outq ∧ fits s.par.inDepth s.inq

/-- The call in progress stands inside its running transaction: all outbound bytes are pushed before the first inbound byte is
popped (R180), and fewer bytes are popped than it pops in all (R193). -/
def State.jobInv (s : State) : Prop :=
  ∀ j, s.job = some j →
    j.pos ≤ (j.txn s.par).bytes.length ∧
    j.got.length < (j.txn s.par).inbound ∧
    (j.got ≠ [] → j.pos = (j.txn s.par).bytes.length)

/-- The data of a call in progress is short enough for the 16-bit count (R181, C4). -/
def State.dataInv (s : State) : Prop :=
  ∀ j, s.job = some j → ∀ addr data stop, j.op = .write addr data stop → data.length ≤ 65534

/-! ## What stays the same -/

/-- The Driver's program state and the host's calls are the same. -/
def sameDriver (s t : State) : Prop :=
  t.calls = s.calls ∧ t.job = s.job ∧ t.results = s.results ∧ t.refusal = s.refusal

/-- The Engine's registers and its ghost count are the same. -/
def sameEngine (s t : State) : Prop :=
  t.st = s.st ∧ t.count = s.count ∧ t.op = s.op ∧ t.consumed = s.consumed

/-- The Bus Primitive's outputs and the bus trace are the same. -/
def sameBusOutputs (s t : State) : Prop :=
  t.back = s.back ∧ t.bbyte = s.bbyte ∧ t.blog = s.blog

/-- No strobe: the Bus Primitive's busy level and the operation in flight are the same. -/
def sameFlight (s t : State) : Prop :=
  t.bbusy = s.bbusy ∧ t.bpend = s.bpend

/-- The devices' answers fixed from outside are the same. -/
def sameDraws (s t : State) : Prop :=
  t.acks = s.acks ∧ t.reads = s.reads

/-- The parameters and the schedule are the same. -/
def sameSetting (s t : State) : Prop :=
  t.par = s.par ∧ t.turns = s.turns ∧ t.tick = s.tick

/-! ## A write sequence in progress -/

/-- The starved case of state WRITE (R142): the last byte acknowledged, more to send, and no byte to send. -/
def State.starved (s : State) : Bool :=
  s.st == .write && !s.bbusy && s.back && s.count != 1 && s.outq.isEmpty

/-- The events of writing each byte of `bs` with acknowledgement (R14 `W(b)/A`). -/
def ackedWrites (bs : List Byte) : List BusEvent := bs.map fun b => .write b true

/-- A write of `n` bytes is in progress (R144): `log` is the bus trace and `c` the number of bytes consumed before its first
payload byte, and `ps` are the payload bytes taken from the outbound channel since. All but the last of them are on the bus,
acknowledged; the last one is in flight or just completed. -/
def State.writing (n : Nat) (log : List BusEvent) (c : Nat) (ps : List Byte) (s : State) : Prop :=
  ∃ bs b, ps = bs ++ [b] ∧ ps.length ≤ n ∧ s.st = .write ∧ s.count = BitVec.ofNat 16 (n - bs.length) ∧
    s.consumed = c + ps.length ∧
    ((s.bbusy = true ∧ s.bpend = some (.write b) ∧ s.blog = log ++ ackedWrites bs) ∨
     (s.bbusy = false ∧ s.bpend = none ∧ s.blog = log ++ ackedWrites bs ++ [.write b s.back]))

/-- That write has ended after `k` acknowledged bytes and the Engine is about to report (R144): all `n` bytes taken were
acknowledged, or the last one taken was not. -/
def State.written (n : Nat) (log : List BusEvent) (c : Nat) (ps : List Byte) (k : Nat) (s : State) : Prop :=
  s.st = .report ∧ s.bbusy = false ∧ s.bpend = none ∧ s.count = BitVec.ofNat 16 (n - k) ∧ s.consumed = c + ps.length ∧
    ((k = n ∧ ps.length = n ∧ s.blog = log ++ ackedWrites ps) ∨
     (k < n ∧ ∃ bs b, ps = bs ++ [b] ∧ bs.length = k ∧ s.blog = log ++ ackedWrites bs ++ [.write b false]))

/-! ## A read sequence in progress -/

/-- The events of reading each byte of `ds` with acknowledgement (R14 `R(A)/b`). -/
def ackedReads (ds : List Byte) : List BusEvent := ds.map fun d => .read true d

/-- A read of `n` bytes is in progress (R163): `log` is the bus trace before its first read, and `ds` are the bytes pushed to
the inbound channel since, all of them acknowledged. One more read has been issued, acknowledged unless it is the last one;
it is in flight or just completed, and the counter is what is left after it. -/
def State.reading (n : Nat) (log : List BusEvent) (ds : List Byte) (s : State) : Prop :=
  ds.length < n ∧ s.st = .read ∧ s.count = BitVec.ofNat 16 (n - (ds.length + 1)) ∧
    ((s.bbusy = true ∧ s.bpend = some (.read (decide (ds.length + 1 ≠ n))) ∧ s.blog = log ++ ackedReads ds) ∨
     (s.bbusy = false ∧ s.bpend = none ∧
       s.blog = log ++ ackedReads ds ++ [.read (decide (ds.length + 1 ≠ n)) s.bbyte]))

/-- The events of a complete read of `ds`: every byte but the last acknowledged (R163). -/
def readEvents : List Byte → List BusEvent
  | [] => []
  | [d] => [.read false d]
  | d :: ds => .read true d :: readEvents ds

/-- That read has ended with the bytes `ds` (R163). -/
def State.readDone (n : Nat) (log : List BusEvent) (ds : List Byte) (s : State) : Prop :=
  ds.length = n ∧ s.st = .idle ∧ s.count = 0 ∧ s.bbusy = false ∧ s.bpend = none ∧ s.blog = log ++ readEvents ds

/-! ## The transition table -/

/-- One row of R106's table: the state, the guard on the state before the step, and what the step does. -/
structure Row where
  state : FsmState
  guard : State → Bool
  act : State → State

/-- Take the head of the outbound channel and do `f` with it; a row that pops has `OutAvail()` in its guard. -/
def Row.withPop (f : Byte → State → State) (s : State) : State :=
  f (s.outq.headD 0) { s with outq := s.outq.tail, consumed := s.consumed + 1 }

/-- The transition table R106 in its order, with its "hold or `count - 1`" row of state WRITE split by `STARVED_WRITE_MODE`, and
with the hold rows R104 adds for COUNT_HIGH, COUNT_LOW, WRITE_FIRST and REPORT. -/
def transitionTable : List Row :=
  [ ⟨.idle, fun s => !s.bbusy && s.outAvail, Row.withPop fun b s => { s with op := b, st := .decode }⟩,
    ⟨.idle, fun s => !(!s.bbusy && s.outAvail), id⟩,
    ⟨.decode, fun s => s.op == 0x01, fun s => { s.strobe .start with st := .idle }⟩,
    ⟨.decode, fun s => s.op == 0x02, fun s => { s.strobe .stop with st := .idle }⟩,
    ⟨.decode, fun s => s.op == 0x03, fun s => { s with st := .countHigh }⟩,
    ⟨.decode, fun s => s.op == 0x04 && s.count == 0, fun s => { s with st := .idle }⟩,
    ⟨.decode, fun s => s.op == 0x04 && s.count != 0, fun s => { s with st := .writeFirst }⟩,
    ⟨.decode, fun s => s.op == 0x05 && s.count == 0, fun s => { s with st := .idle }⟩,
    ⟨.decode, fun s => s.op == 0x05 && s.count != 0, fun s => { s with st := .readFirst }⟩,
    ⟨.decode, fun s => !(0x01 ≤ s.op.toNat && s.op.toNat ≤ 0x05), fun s => { s with st := .idle }⟩,
    ⟨.countHigh, fun s => s.outAvail,
      Row.withPop fun b s => { s with count := BitVec.ofNat 16 (b.toNat * 256 + s.count.toNat % 256), st := .countLow }⟩,
    ⟨.countHigh, fun s => !s.outAvail, id⟩,
    ⟨.countLow, fun s => s.outAvail,
      Row.withPop fun b s => { s with count := BitVec.ofNat 16 (s.count.toNat / 256 * 256 + b.toNat), st := .idle }⟩,
    ⟨.countLow, fun s => !s.outAvail, id⟩,
    ⟨.writeFirst, fun s => s.outAvail, Row.withPop fun b s => { s.strobe (.write b) with st := .write }⟩,
    ⟨.writeFirst, fun s => !s.outAvail, id⟩,
    ⟨.write, fun s => !s.bbusy && (!s.back || s.count == 1),
      fun s => { s with count := if s.back then s.count - 1 else s.count, st := .report }⟩,
    ⟨.write, fun s => !s.bbusy && s.back && s.count != 1 && s.outAvail,
      Row.withPop fun b s => { s.strobe (.write b) with count := s.count - 1 }⟩,
    ⟨.write, fun s => !s.bbusy && s.back && s.count != 1 && !s.outAvail && s.par.starvedWrite == .hold, id⟩,
    ⟨.write, fun s => !s.bbusy && s.back && s.count != 1 && !s.outAvail && s.par.starvedWrite == .redecrement,
      fun s => { s with count := s.count - 1 }⟩,
    ⟨.write, fun s => s.bbusy, id⟩,
    ⟨.report, fun s => s.inReady,
      fun s => { s with inq := s.inq ++ [BitVec.ofNat 8 (s.count.toNat % 256)], st := .idle }⟩,
    ⟨.report, fun s => !s.inReady, id⟩,
    ⟨.readFirst, fun _ => true,
      fun s => { s.strobe (.read (s.count != 1)) with count := s.count - 1, st := .read }⟩,
    ⟨.read, fun s => !s.bbusy && s.inReady && s.count == 0,
      fun s => { s with inq := s.inq ++ [s.bbyte], st := .idle }⟩,
    ⟨.read, fun s => !s.bbusy && s.inReady && s.count != 0,
      fun s => { s.strobe (.read (s.count != 1)) with inq := s.inq ++ [s.bbyte], count := s.count - 1 }⟩,
    ⟨.read, fun s => !(!s.bbusy && s.inReady), id⟩ ]

/-- The rows of the table that apply in `s`. -/
def State.enabledRows (s : State) : List Row :=
  transitionTable.filter fun r => r.state == s.st && r.guard s

/-! ## Runs with the turns fixed -/

/-- `s` with the next turns fixed to `turns`. -/
def State.withTurns (s : State) (turns : List Agent) : State := { s with turns := turns }

/-- The run of as many steps as `turns` has, those turns fixed. -/
def runTurns (turns : List Agent) (s : State) : Host.Outcome State Fault Refusal :=
  core.run turns.length (s.withTurns turns)

/-- The turns of `k` bus completions, each followed by one Engine step. -/
def busThenEngine : Nat → List Agent
  | 0 => []
  | k + 1 => .bus :: .engine :: busThenEngine k

/-- A round of turns in which every agent has one at least: what weak fairness gives again and again (R108). -/
def fairRound (r : List Agent) : Prop := .engine ∈ r ∧ .bus ∈ r ∧ .driver ∈ r

/-- Every run from `s` comes to states with `P`, whatever the schedule: there is a number of rounds after which every run in
which each agent had a turn in each round has come there (R100 "in any order", R108). -/
def endsIn (s : State) (P : State → Prop) : Prop :=
  ∃ n, ∀ rounds : List (List Agent), n ≤ rounds.length → (∀ r ∈ rounds, fairRound r) →
    ∃ t, runTurns rounds.flatten s = .next t ∧ P t

/-! ## What calls do when they are in step -/

/-- The bus trace, and the answers of the devices fixed from outside (R29). -/
structure BusView where
  log : List BusEvent
  acks : List Bool
  reads : List Byte
  deriving DecidableEq, Repr

/-- What the devices have seen and will answer. -/
def State.busView (s : State) : BusView := ⟨s.blog, s.acks, s.reads⟩

/-- One more condition on the bus. -/
def BusView.condition (v : BusView) (e : BusEvent) : BusView := { v with log := v.log ++ [e] }

/-- A start, and nothing or a stop after it (R182, R184 `[STOP]`). -/
def BusView.finish (v : BusView) (stop : Bool) : BusView := if stop then v.condition .stop else v

/-- Write the bytes until one is not acknowledged: how many are acknowledged, and the bus after it (R144). -/
def BusView.write (v : BusView) : List Byte → Nat × BusView
  | [] => (0, v)
  | b :: bs =>
    let ack := v.acks.headD (Config.ackOracle v.log b)
    let w : BusView := { v with log := v.log ++ [.write b ack], acks := v.acks.tail }
    if ack then ((w.write bs).1 + 1, (w.write bs).2) else (0, w)

/-- Read `n` bytes, every one but the last acknowledged: the bytes, and the bus after it (R163). -/
def BusView.read (v : BusView) : Nat → List Byte × BusView
  | 0 => ([], v)
  | n + 1 =>
    let ack : Bool := n != 0
    let d := v.reads.headD (Config.readOracle v.log ack)
    let w : BusView := { v with log := v.log ++ [.read ack d], reads := v.reads.tail }
    (d :: (w.read n).1, (w.read n).2)

/-- The bus operations of `write(addr, data, stop)` and how many bytes, the address byte first, are acknowledged (R182). -/
def BusView.writeTxn (v : BusView) (a : Addr) (data : List Byte) (stop : Bool) : Nat × BusView :=
  let r := (v.condition .start).write (BitVec.ofNat 8 (2 * a.toNat) :: data)
  (r.1, r.2.finish stop)

/-- The bus operations of `read(addr, size, stop)`, whether the address byte is acknowledged and the bytes read (R184). -/
def BusView.readTxn (v : BusView) (a : Addr) (size : Nat) (stop : Bool) : (Bool × List Byte) × BusView :=
  let r := (v.condition .start).write [BitVec.ofNat 8 (2 * a.toNat + 1)]
  let d := r.2.read size
  ((r.1 == 1, d.1), d.2.finish stop)

/-- The payload byte of the Device-ID write (R187). -/
def deviceIdTargetByte (p : Params) (a : Addr) : Byte :=
  BitVec.ofNat 8 (match p.deviceIdTarget with | .addr => a.toNat | .addrShifted => 2 * a.toNat)

/-- The Device-ID fields of the three bytes read (R188). -/
def deviceIdBytes (ds : List Byte) : DeviceId :=
  let v : BitVec 24 := ds.getD 0 0 ++ ds.getD 1 0 ++ ds.getD 2 0
  ⟨v.extractLsb' 12 12, v.extractLsb' 3 9, v.extractLsb' 0 3⟩

/-- What a call returns, and the bus after it, when it is in step (R183, R185, R186, R187). -/
def Op.outcome (p : Params) (v : BusView) : Op → Result × BusView
  | .write a data stop =>
    let r := v.writeTxn a data stop
    (.write (decide ((1 + data.length - r.1) % 256 = 0)), r.2)
  | .read a size stop =>
    let r := v.readTxn a size.toNat stop
    (.read (if r.1.1 then some r.1.2 else none), r.2)
  | .poll a =>
    let r := v.writeTxn a [] true
    (.poll (decide (r.1 = 1)), r.2)
  | .deviceId a =>
    let w := v.writeTxn 0x7C [deviceIdTargetByte p a] p.deviceIdWriteStop
    if w.1 = 2 then
      let r := w.2.readTxn 0x7C 3 p.deviceIdReadStop
      (.deviceId (if r.1.1 then some (deviceIdBytes r.1.2) else none), r.2)
    else (.deviceId none, w.2)

/-- The byte is no opcode (R86). -/
def ignoredByte (b : Byte) : Prop := b = 0x00 ∨ 0x06 ≤ b.toNat

/-- R194's condition: the data bytes left over after a byte that is not acknowledged are no opcodes. -/
def Op.inStep (p : Params) (v : BusView) : Op → Prop
  | .write a data stop => ∀ b ∈ data.drop (v.writeTxn a data stop).1, ignoredByte b
  | .read _ _ _ => True
  | .poll _ => True
  | .deviceId a =>
    (v.writeTxn 0x7C [deviceIdTargetByte p a] p.deviceIdWriteStop).1 = 0 → ignoredByte (deviceIdTargetByte p a)

/-- The results of calls made one after the other, and the bus after them. -/
def outcomes (p : Params) (v : BusView) : List Op → List Result × BusView
  | [] => ([], v)
  | o :: os =>
    let r := o.outcome p v
    (r.1 :: (outcomes p r.2 os).1, (outcomes p r.2 os).2)

/-- Each of the calls is in step where its turn comes. -/
def allInStep (p : Params) (v : BusView) : List Op → Prop
  | [] => True
  | o :: os => o.inStep p v ∧ allInStep p (o.outcome p v).2 os

end Machine
end Sys2Proof
end

