-- ==== Sys2Proof/Certificates/Slice0/Obligations.lean ====
section
/-! DEFINITION. The statements for the provers. Every one holds for every construction parameter, every schedule and every
answer of the devices, since all three stand in the state or are free values. -/

open Sys2Proof Sys2Proof.Machine

/-! ## Decoding and encoding -/

/-- R81, R83, R86: words written out from the opcode map decode to their instructions. -/
def Obligations.SpecWordsDecode : Prop :=
  decode [0x01] = .instr .start [] ∧
  decode [0x02] = .instr .stop [] ∧
  decode [0x03, 0x12, 0x34, 0xA0] = .instr (.setCount 0x1234) [0xA0] ∧
  decode [0x04, 0xA0, 0x55] = .instr .write [0xA0, 0x55] ∧
  decode [0x05, 0x02] = .instr .read [0x02] ∧
  decode [0x00] = .ignored 0x00 [] ∧
  decode [0x06] = .ignored 0x06 [] ∧
  decode [0xFF] = .ignored 0xFF []

/-- R81, R82, R83: decoding an encoded well-formed instruction gives it back, with whatever follows it left over. -/
def Obligations.DecodeOfEncode : Prop :=
  ∀ (i : Instr) (rest : List Byte), i.wf = true → decode (encode i ++ rest) = .instr i rest

/-- R81, R82: a stream that decodes to an instruction begins with exactly that instruction's bytes, and the instruction is
well formed. -/
def Obligations.EncodeOfDecode : Prop :=
  ∀ (bs rest : List Byte) (i : Instr), decode bs = .instr i rest → i.wf = true ∧ bs = encode i ++ rest

/-- R83: the operand is `hi * 256 + lo`, every value 0 to 65535 occurs, loading it puts the two bytes in the two halves of
the counter, and no other instruction has an operand. -/
def Obligations.OperandAssembly : Prop :=
  (∀ (hi lo : Byte) (rest : List Byte),
    decode (0x03 :: hi :: lo :: rest) = .instr (.setCount (hi.toNat * 256 + lo.toNat)) rest ∧
    BitVec.ofNat 16 (hi.toNat * 256 + lo.toNat) = hi ++ lo) ∧
  (∀ n : Nat, n ≤ 65535 → ∃ hi lo : Byte, n = hi.toNat * 256 + lo.toNat) ∧
  (∀ i : Instr, (∀ n, i ≠ .setCount n) → (encode i).length = 1)

/-- R86, R103: a byte in opcode position is ignored exactly when it is 0x00 or 0x06 to 0xFF, and the Engine, in IDLE with the bus
idle, consumes it and is back in IDLE two Engine turns later with only the latch, the stream position and the schedule
changed: no bus operation, no inbound byte, the counter the same. -/
def Obligations.IgnoredBytesHaveNoEffect : Prop :=
  (∀ (b : Byte) (rest : List Byte), decode (b :: rest) = .ignored b rest ↔ b = 0x00 ∨ 0x06 ≤ b.toNat) ∧
  (∀ (s : State) (b : Byte) (rest : List Byte),
    b = 0x00 ∨ 0x06 ≤ b.toNat → s.st = .idle → s.bbusy = false → s.outq = b :: rest →
    runTurns [.engine, .engine] s =
      .next { s with op := b, outq := rest, consumed := s.consumed + 1, turns := [], tick := s.tick + 2 })

/-! ## Reset, fetch and decode -/

/-- Section 5 of 10_state.md: what reset leaves, for every value of the construction parameters. Empty channels, the idle bus
and COUNT_RESET are the spec's own decisions D24, D19 and D4. -/
def Obligations.ResetValues : Prop :=
  ∀ p : Params,
    let s := State.resetWith p
    s.st = .idle ∧ s.count = p.countReset ∧ s.outq = [] ∧ s.inq = [] ∧ s.bbusy = false ∧ s.bpend = none ∧
    s.blog = [] ∧ s.job = none

/-- The state after reset is the clean entry of R241 and meets every invariant stated below (that no call waits there is the
model's choice, log 9). -/
def Obligations.ResetMeetsInvariants : Prop :=
  ∀ p : Params,
    let s := State.resetWith p
    s.cleanEntry ∧ s.busInv ∧ s.flightInv ∧ s.counterInv ∧ s.channelInv ∧ s.jobInv ∧ s.dataInv

/-- R101: IDLE takes the next opcode when the bus is idle and a byte is there, pushing and strobing nothing, and holds
otherwise. It is the only state that waits for a start or stop to finish: while one is in flight (the invariants of
`BusyOnlyInWaitingStates`) the Engine is in IDLE and holds. -/
def Obligations.IdleFetches : Prop :=
  (∀ s : State, s.st = .idle →
    (∀ b rest, s.bbusy = false → s.outq = b :: rest →
      engineStep s = .next { s with op := b, st := .decode, outq := rest, consumed := s.consumed + 1 }) ∧
    (s.bbusy = true ∨ s.outq = [] → engineStep s = .next s)) ∧
  (∀ s : State, s.busInv → s.flightInv → s.bpend = some .start ∨ s.bpend = some .stop →
    s.st = .idle ∧ engineStep s = .next s)

/-- R102: DECODE branches on the opcode latch and never holds; it pops nothing and pushes nothing, and its strobe finds the bus
idle (under the invariants of `BusyOnlyInWaitingStates`). -/
def Obligations.DecodeBranches : Prop :=
  ∀ s : State, s.st = .decode →
    (s.busInv → s.flightInv → s.bbusy = false) ∧
    engineStep s =
      .next
        (if s.op = 0x01 then { s with bbusy := true, bpend := some .start, st := .idle }
        else if s.op = 0x02 then { s with bbusy := true, bpend := some .stop, st := .idle }
        else if s.op = 0x03 then { s with st := .countHigh }
        else if s.op = 0x04 then (if s.count = 0 then { s with st := .idle } else { s with st := .writeFirst })
        else if s.op = 0x05 then (if s.count = 0 then { s with st := .idle } else { s with st := .readFirst })
        else { s with st := .idle })

/-- R100: a step is the step of the agent whose turn it is, with the turn used up first (log 1). On the Engine's turn it is, in
DECODE, the instruction the latch decodes to, the way to the operand of SET-COUNT, or the dropping of a byte that is no
opcode; in COUNT_LOW, SET-COUNT once the stream gives its last operand byte; in the later states of WRITE and READ that
instruction (log 10); in IDLE and COUNT_HIGH, taking the next byte; and a wait for a byte or the bus changes nothing else
(log 2). -/
def Obligations.StepRunsTheDecodedInstruction : Prop :=
  (∀ s : State, s.turn = .bus → step s = .next (busStep s.advance)) ∧
  (∀ s : State, s.turn = .driver → step s = .next (driverStep s.advance)) ∧
  (∀ s : State, s.turn = .engine →
    step s = engineStep s.advance ∧
    (∀ i rest, s.st = .decode → decode [s.op] = .instr i rest → step s = exec i s.advance) ∧
    (s.st = .decode → decode [s.op] = .incomplete → step s = .next { s.advance with st := .countHigh }) ∧
    (∀ b rest, s.st = .decode → decode [s.op] = .ignored b rest → step s = .next { s.advance with st := .idle }) ∧
    (∀ hi rest, s.st = .countHigh → s.outq = hi :: rest →
      step s = .next { s.advance with count := hi ++ s.count.extractLsb' 0 8, st := .countLow, outq := rest,
                                      consumed := s.consumed + 1 }) ∧
    (∀ lo rest, s.st = .countLow → s.outq = lo :: rest →
      ∃ n, decode [0x03, countHi s.count, lo] = .instr (.setCount n) [] ∧
        step s = exec (.setCount n) { s.advance with outq := rest, consumed := s.consumed + 1 }) ∧
    (s.st = .countHigh ∨ s.st = .countLow → s.outq = [] → step s = .next s.advance) ∧
    (s.st = .writeFirst ∨ s.st = .write ∨ s.st = .report → step s = exec .write s.advance) ∧
    (s.st = .readFirst ∨ s.st = .read → step s = exec .read s.advance) ∧
    (∀ b rest, s.st = .idle → s.bbusy = false → s.outq = b :: rest →
      step s = .next { s.advance with op := b, st := .decode, outq := rest, consumed := s.consumed + 1 }) ∧
    (s.st = .idle → s.bbusy = true ∨ s.outq = [] → step s = .next s.advance))

/-- A word of the opcode table put before the step is the instruction the next step runs (log 12: how a program is placed is
the model's choice). -/
def Obligations.PlacedWordIsRunNext : Prop :=
  ∀ (s : State) (nbits w : Nat) (i : Instr), decodeTableWord nbits w = some i →
    step (s.withFetchWord nbits w) =
      match i with
      | .setCount n =>
        exec (.setCount n)
          { s with op := 0x03, st := .countLow, count := withCountHi s.count (BitVec.ofNat 8 (n / 256)),
                   consumed := s.consumed + 1, tick := s.tick + 1 }
      | i => exec i { s with op := (encode i).headD 0, st := .decode, tick := s.tick + 1 }

/-! ## The instructions -/

/-- R121: in DECODE, START strobes the Bus Primitive's start and goes to IDLE; from IDLE, with the bus idle, it takes two Engine steps,
and its completion logs `S`. The counter and the Primitive's outputs stay. -/
def Obligations.StartRuns : Prop :=
  (∀ s : State, s.st = .decode →
    exec .start s = .next { s with bbusy := true, bpend := some .start, st := .idle }) ∧
  (∀ (s : State) (rest : List Byte), s.st = .idle → s.bbusy = false → s.bpend = none → s.outq = 0x01 :: rest →
    runTurns [.engine, .engine] s =
      .next { s with op := 0x01, outq := rest, consumed := s.consumed + 1, bbusy := true, bpend := some .start,
                     turns := [], tick := s.tick + 2 } ∧
    runTurns [.engine, .engine, .bus] s =
      .next { s with op := 0x01, outq := rest, consumed := s.consumed + 1, blog := s.blog ++ [.start],
                     turns := [], tick := s.tick + 3 })

/-- R122: in DECODE, STOP strobes the Bus Primitive's stop and goes to IDLE; from IDLE, with the bus idle, it takes two Engine steps,
and its completion logs `P`. The counter and the Primitive's outputs stay. -/
def Obligations.StopRuns : Prop :=
  (∀ s : State, s.st = .decode →
    exec .stop s = .next { s with bbusy := true, bpend := some .stop, st := .idle }) ∧
  (∀ (s : State) (rest : List Byte), s.st = .idle → s.bbusy = false → s.bpend = none → s.outq = 0x02 :: rest →
    runTurns [.engine, .engine] s =
      .next { s with op := 0x02, outq := rest, consumed := s.consumed + 1, bbusy := true, bpend := some .stop,
                     turns := [], tick := s.tick + 2 } ∧
    runTurns [.engine, .engine, .bus] s =
      .next { s with op := 0x02, outq := rest, consumed := s.consumed + 1, blog := s.blog ++ [.stop],
                     turns := [], tick := s.tick + 3 })

/-- R130: after SET-COUNT `n` the counter is `n` and the Engine is in IDLE; from IDLE it takes four Engine steps, with no bus
operation and no inbound byte. That `exec` of it is the step of COUNT_LOW, and loads both halves there, is the model's
reading (log 10). -/
def Obligations.SetCountLoadsTheCounter : Prop :=
  (∀ (s : State) (n : Nat), s.st = .countLow → n ≤ 65535 →
    ∃ c : Count, exec (.setCount n) s = .next { s with count := c, st := .idle } ∧ c.toNat = n) ∧
  (∀ (s : State) (h l : Byte) (rest : List Byte),
    s.st = .idle → s.bbusy = false → s.outq = 0x03 :: h :: l :: rest →
    runTurns [.engine, .engine, .engine, .engine] s =
      .next { s with op := 0x03, outq := rest, consumed := s.consumed + 3,
                     count := BitVec.ofNat 16 (h.toNat * 256 + l.toNat), turns := [], tick := s.tick + 4 })

/-- R131 (that the low byte stays is the spec's decision D23): COUNT_HIGH takes a byte into `count[15:8]`, leaves `count[7:0]`, and holds while none is there. -/
def Obligations.CountHighTakesTheHighByte : Prop :=
  ∀ s : State, s.st = .countHigh →
    (∀ b rest, s.outq = b :: rest →
      ∃ c, engineStep s = .next { s with count := c, st := .countLow, outq := rest, consumed := s.consumed + 1 } ∧
        c.extractLsb' 8 8 = b ∧ c.extractLsb' 0 8 = s.count.extractLsb' 0 8) ∧
    (s.outq = [] → engineStep s = .next s)

/-- R132: COUNT_LOW takes a byte into `count[7:0]`, leaves `count[15:8]`, and holds while none is there. -/
def Obligations.CountLowTakesTheLowByte : Prop :=
  ∀ s : State, s.st = .countLow →
    (∀ b rest, s.outq = b :: rest →
      ∃ c, engineStep s = .next { s with count := c, st := .idle, outq := rest, consumed := s.consumed + 1 } ∧
        c.extractLsb' 0 8 = b ∧ c.extractLsb' 8 8 = s.count.extractLsb' 8 8) ∧
    (s.outq = [] → engineStep s = .next s)

/-- R140, DECODE: WRITE with the counter 0 only goes back to IDLE; otherwise it goes to WRITE_FIRST. -/
def Obligations.WriteIsDecoded : Prop :=
  ∀ s : State, s.st = .decode →
    (s.count = 0 → exec .write s = .next { s with st := .idle }) ∧
    (s.count ≠ 0 → exec .write s = .next { s with st := .writeFirst })

/-- R141: WRITE_FIRST hands the next outbound byte to the bus and goes to state WRITE; it holds while none is there, and does
not change the counter. -/
def Obligations.WriteFirstSendsTheFirstByte : Prop :=
  ∀ s : State, s.st = .writeFirst →
    (∀ b rest, s.outq = b :: rest →
      exec .write s =
        .next { s with outq := rest, consumed := s.consumed + 1, bbusy := true, bpend := some (.write b),
                       st := .write }) ∧
    (s.outq = [] → exec .write s = .next s)

/-- R142: state WRITE holds while the bus is busy. Otherwise a byte not acknowledged goes to REPORT with the counter as it is;
the last byte, acknowledged, goes to REPORT with the counter decremented; an acknowledged byte with more to send sends the
next one and decrements; and with none to send it holds or decrements as STARVED_WRITE_MODE says (the spec's decision
D6). -/
def Obligations.WriteStateRule : Prop :=
  ∀ s : State, s.st = .write →
    (s.bbusy = true → exec .write s = .next s) ∧
    (s.bbusy = false → s.back = false → exec .write s = .next { s with st := .report }) ∧
    (s.bbusy = false → s.back = true → s.count = 1 → exec .write s = .next { s with count := 0, st := .report }) ∧
    (s.bbusy = false → s.back = true → s.count ≠ 1 →
      (∀ b rest, s.outq = b :: rest →
        exec .write s =
          .next { s with outq := rest, consumed := s.consumed + 1, count := s.count - 1, bbusy := true,
                         bpend := some (.write b) }) ∧
      (s.outq = [] → s.par.starvedWrite = .hold → exec .write s = .next s) ∧
      (s.outq = [] → s.par.starvedWrite = .redecrement → exec .write s = .next { s with count := s.count - 1 }))

/-- R143: REPORT pushes the low byte of the counter (the spec's decision D5) when the inbound channel has room, and goes to IDLE with the counter
unchanged; it holds otherwise. -/
def Obligations.ReportPushesTheLowByte : Prop :=
  ∀ s : State, s.st = .report →
    (s.inReady = true →
      exec .write s = .next { s with inq := s.inq ++ [BitVec.ofNat 8 (s.count.toNat % 256)], st := .idle }) ∧
    (s.inReady = false → exec .write s = .next s)

/-- R160, DECODE: READ with the counter 0 only goes back to IDLE; otherwise it goes to READ_FIRST. -/
def Obligations.ReadIsDecoded : Prop :=
  ∀ s : State, s.st = .decode →
    (s.count = 0 → exec .read s = .next { s with st := .idle }) ∧
    (s.count ≠ 0 → exec .read s = .next { s with st := .readFirst })

/-- R161: READ_FIRST requests a byte, to be acknowledged unless it is the last one, decrements the counter and goes to READ; it
never holds. -/
def Obligations.ReadFirstRequestsTheFirstByte : Prop :=
  ∀ s : State, s.st = .readFirst →
    exec .read s =
      .next { s with bbusy := true, bpend := some (.read (decide (s.count ≠ 1))), count := s.count - 1, st := .read }

/-- R162: READ pushes the byte received once the bus is idle and the inbound channel has room; with the counter 0 it goes to
IDLE, otherwise it requests the next byte in the same step. It holds otherwise (that the whole step waits is the spec's
decision D7). -/
def Obligations.ReadStateRule : Prop :=
  ∀ s : State, s.st = .read →
    (s.bbusy = false → s.inReady = true → s.count = 0 →
      exec .read s = .next { s with inq := s.inq ++ [s.bbyte], st := .idle }) ∧
    (s.bbusy = false → s.inReady = true → s.count ≠ 0 →
      exec .read s =
        .next { s with inq := s.inq ++ [s.bbyte], bbusy := true, bpend := some (.read (decide (s.count ≠ 1))),
                       count := s.count - 1 }) ∧
    (s.bbusy = true ∨ s.inReady = false → exec .read s = .next s)

/-! ## What the instructions leave unchanged -/

/-- START and STOP change only the FSM state and the operation in flight, in DECODE and, by the model's choice (log 11), in the
other FSM states. -/
def Obligations.BusConditionFrame : Prop :=
  ∀ (s t : State) (i : Instr), i = .start ∨ i = .stop → exec i s = .next t →
    t.count = s.count ∧ t.op = s.op ∧ t.consumed = s.consumed ∧ t.outq = s.outq ∧ t.inq = s.inq ∧
    sameBusOutputs s t ∧ sameDriver s t ∧ sameDraws s t ∧ sameSetting s t

/-- SET-COUNT changes only the counter and the FSM state, in COUNT_LOW (log 10) and, by the model's choice (log 11), in the
other FSM states. -/
def Obligations.SetCountFrame : Prop :=
  ∀ (s t : State) (n : Nat), exec (.setCount n) s = .next t →
    t.op = s.op ∧ t.consumed = s.consumed ∧ t.outq = s.outq ∧ t.inq = s.inq ∧
    sameFlight s t ∧ sameBusOutputs s t ∧ sameDriver s t ∧ sameDraws s t ∧ sameSetting s t

/-- WRITE, in its own FSM states (DECODE, WRITE_FIRST, WRITE, REPORT) and in the others, where its effect is the model's choice
(log 11): the latch, the Primitive's outputs, the trace and the Driver stay; the outbound channel loses at most its head, and
only in WRITE_FIRST and state WRITE; the inbound channel gains at most the report, and only in REPORT; the operation in
flight changes only to a byte popped; the counter changes only in state WRITE. -/
def Obligations.WriteFrame : Prop :=
  ∀ s t : State, exec .write s = .next t →
    t.op = s.op ∧ sameBusOutputs s t ∧ sameDriver s t ∧ sameDraws s t ∧ sameSetting s t ∧
    (s.st ≠ .write → t.count = s.count) ∧
    (s.st ≠ .report → t.inq = s.inq) ∧
    (s.st = .report → t.inq = s.inq ∨ t.inq = s.inq ++ [countLo s.count]) ∧
    ((t.outq = s.outq ∧ t.consumed = s.consumed ∧ sameFlight s t) ∨
     (∃ b, (s.st = .writeFirst ∨ s.st = .write) ∧ s.outq = b :: t.outq ∧ t.consumed = s.consumed + 1 ∧
       t.bbusy = true ∧ t.bpend = some (.write b)))

/-- READ, in its own FSM states (DECODE, READ_FIRST, READ) and in the others, where its effect is the model's choice (log 11):
the latch, the outbound channel, the Primitive's outputs, the trace and the Driver stay; the inbound channel gains at most
the byte received, and only in READ; the operation in flight changes only to a read, and the counter only with it. -/
def Obligations.ReadFrame : Prop :=
  ∀ s t : State, exec .read s = .next t →
    t.op = s.op ∧ t.consumed = s.consumed ∧ t.outq = s.outq ∧
    sameBusOutputs s t ∧ sameDriver s t ∧ sameDraws s t ∧ sameSetting s t ∧
    (s.st ≠ .read → t.inq = s.inq) ∧
    (s.st = .read → t.inq = s.inq ∨ t.inq = s.inq ++ [s.bbyte]) ∧
    ((t.count = s.count ∧ sameFlight s t) ∨
     ((s.st = .readFirst ∨ s.st = .read) ∧ t.count = s.count - 1 ∧ t.bbusy = true ∧
       t.bpend = some (.read (decide (s.count ≠ 1)))))

/-! ## The Engine as a whole -/

/-- R106: in every state exactly one row of the transition table applies, and the Engine's step does what that row says. -/
def Obligations.EngineIsTheTransitionTable : Prop :=
  ∀ s : State, ∃ r, s.enabledRows = [r] ∧ engineStep s = .next (r.act s)

/-- R107 as R106 gives it (WRITE_FIRST pops and strobes too, see log 23): an Engine step pops at most one outbound byte, pushes at most one inbound byte and issues at most one strobe. It
never pops and pushes; it pops and strobes only in WRITE_FIRST and state WRITE, and pushes and strobes only in READ. -/
def Obligations.EngineStepLimits : Prop :=
  ∀ s t : State, engineStep s = .next t →
    ((t.outq = s.outq ∧ t.consumed = s.consumed) ∨ (∃ b, s.outq = b :: t.outq ∧ t.consumed = s.consumed + 1)) ∧
    (t.inq = s.inq ∨ ∃ b, t.inq = s.inq ++ [b]) ∧
    (sameFlight s t ∨ (t.bbusy = true ∧ t.bpend ≠ none)) ∧
    (t.outq = s.outq ∨ t.inq = s.inq) ∧
    (t.outq ≠ s.outq → ¬ sameFlight s t → s.st = .writeFirst ∨ s.st = .write) ∧
    (t.inq ≠ s.inq → ¬ sameFlight s t → s.st = .read)

/-- R104 (a hold is a step that changes nothing: log 2): the Engine's step leaves the state as it is exactly when its guard is false, and DECODE and READ_FIRST never hold. -/
def Obligations.EngineHoldsExactlyWhenDisabled : Prop :=
  ∀ s : State, (engineStep s = .next s ↔ s.engineEnabled = false) ∧
    (s.st = .decode ∨ s.st = .readFirst → s.engineEnabled = true)

/-- R220 (every agent's turn is answered, a hold included: log 2): no step of the system ends in anything but a next state. -/
def Obligations.EveryStepAnswersNext : Prop :=
  ∀ s : State, ∃ t, step s = .next t

/-- The construction parameters never change. -/
def Obligations.ParametersNeverChange : Prop :=
  ∀ s t : State, step s = .next t → t.par = s.par

/-- R134: the counter changes only on the Engine's turn, in COUNT_HIGH, COUNT_LOW, state WRITE, READ_FIRST and READ: no other
opcode, no bus condition, no Driver step and no bus completion changes it. -/
def Obligations.CounterPersists : Prop :=
  ∀ s t : State, step s = .next t → t.count ≠ s.count →
    s.turn = .engine ∧
    (s.st = .countHigh ∨ s.st = .countLow ∨ s.st = .write ∨ s.st = .readFirst ∨ s.st = .read)

/-- R33: busy means in flight, and an operation in flight finds the Engine in IDLE, state WRITE or READ: every step of every
agent keeps it, and it implies that the bus is idle in the other six states, and that the Engine never strobes a busy bus:
while the bus is busy, the Engine holds. -/
def Obligations.BusyOnlyInWaitingStates : Prop :=
  (∀ s t : State, s.busInv → s.flightInv → step s = .next t → t.busInv ∧ t.flightInv) ∧
  (∀ s : State, s.busInv → s.flightInv → s.busyInv) ∧
  (∀ s : State, s.busInv → s.flightInv → s.bbusy = true → engineStep s = .next s)

/-- R34: the counter is at least 1 in WRITE_FIRST, state WRITE and READ_FIRST, which every step of every agent keeps; and
outside the loading of an operand the Engine only ever leaves the counter or takes 1 from a counter that is not 0. -/
def Obligations.CounterNeverWraps : Prop :=
  (∀ s t : State, s.counterInv → step s = .next t → t.counterInv) ∧
  (∀ s t : State, s.counterInv → engineStep s = .next t → s.st ≠ .countHigh → s.st ≠ .countLow →
    t.count = s.count ∨ (s.count ≠ 0 ∧ t.count.toNat + 1 = s.count.toNat))

/-! ## The Bus agent -/

/-- R29 item 3, the completion (the spec's decision D3; what is drawn: log 4): it logs one event, gives the drawn acknowledgement or byte, leaves the other outputs, and
the bus is idle after it. -/
def Obligations.BusCompletes : Prop :=
  ∀ s : State, s.bbusy = true →
    (s.bpend = some .start →
      busStep s = { s with blog := s.blog ++ [.start], bbusy := false, bpend := none }) ∧
    (s.bpend = some .stop →
      busStep s = { s with blog := s.blog ++ [.stop], bbusy := false, bpend := none }) ∧
    (∀ b, s.bpend = some (.write b) →
      busStep s = { s with back := s.drawAck b, blog := s.blog ++ [.write b (s.drawAck b)], acks := s.acks.tail,
                           bbusy := false, bpend := none }) ∧
    (∀ a, s.bpend = some (.read a) →
      busStep s = { s with bbyte := s.drawByte a, blog := s.blog ++ [.read a (s.drawByte a)], reads := s.reads.tail,
                           bbusy := false, bpend := none })

/-- R29 items 3 and 4, R64: the Primitive's outputs and the trace change only by a completion, on the Bus agent's turn with the
bus busy, which adds at most one event to the trace. -/
def Obligations.BusOutputsChangeOnlyByCompletion : Prop :=
  ∀ s t : State, step s = .next t →
    sameBusOutputs s t ∨ (s.turn = .bus ∧ s.bbusy = true ∧ ∃ e, t.blog = s.blog ++ [e])

/-! ## The channels -/

/-- R51, R52, R53, R63: in one step the outbound channel stays, or loses its head on the Engine's turn, or gains one byte at its
tail on the Driver's; the inbound channel stays, or gains one byte at its tail on the Engine's turn, or loses its head on
the Driver's. The number of bytes consumed counts the pops of the outbound channel. -/
def Obligations.ChannelsAreFifo : Prop :=
  ∀ s t : State, step s = .next t →
    ((t.outq = s.outq ∧ t.consumed = s.consumed) ∨
     (s.turn = .engine ∧ t.consumed = s.consumed + 1 ∧ ∃ b, s.outq = b :: t.outq) ∨
     (s.turn = .driver ∧ t.consumed = s.consumed ∧ ∃ b, t.outq = s.outq ++ [b])) ∧
    (t.inq = s.inq ∨
     (s.turn = .engine ∧ ∃ b, t.inq = s.inq ++ [b]) ∨
     (s.turn = .driver ∧ ∃ b, s.inq = b :: t.inq))

/-- R53: no step puts more bytes in a channel than its capacity. -/
def Obligations.ChannelsStayWithinCapacity : Prop :=
  ∀ s t : State, s.channelInv → step s = .next t → t.channelInv

/-! ## The write and read sequences -/

/-- R144, in every interleaving, in mode `hold` or where no starved step occurs. The step of WRITE_FIRST begins a write of `n`
bytes with the byte it takes. While it is in progress the counter is `n` less the bytes acknowledged, and every step of every
agent keeps the bytes on the bus, in order, those taken from the outbound channel: `ps` grows by exactly the byte popped. It
ends with all `n` bytes acknowledged, or with the first one not acknowledged as the last one on the bus; then nothing more is
taken until the Engine has pushed the low byte of `n - k` (the spec's decision D5, log 21) and is in IDLE with the counter
`n - k`. -/
def Obligations.WriteSequenceCountsUnacked : Prop :=
  (∀ (s t : State) (b : Byte) (rest : List Byte),
    s.turn = .engine → s.st = .writeFirst → s.count ≠ 0 → s.outq = b :: rest → step s = .next t →
    t.writing s.count.toNat s.blog s.consumed [b] ∧ t.outq = rest) ∧
  (∀ (s t : State) (n : Nat) (log : List BusEvent) (c : Nat) (ps : List Byte),
    n ≤ 65535 → s.par.starvedWrite = .hold ∨ s.starved = false → s.writing n log c ps → step s = .next t →
    (t.consumed = s.consumed ∧ (t.writing n log c ps ∨ ∃ k, t.written n log c ps k)) ∨
    (∃ b, s.outq = b :: t.outq ∧ t.writing n log c (ps ++ [b]))) ∧
  (∀ (s t : State) (n : Nat) (log : List BusEvent) (c : Nat) (ps : List Byte) (k : Nat),
    n ≤ 65535 → s.written n log c ps k → step s = .next t →
    t.written n log c ps k ∨
    (t.st = .idle ∧ t.count = BitVec.ofNat 16 (n - k) ∧ t.consumed = s.consumed ∧ t.blog = s.blog ∧
      t.inq = s.inq ++ [BitVec.ofNat 8 (n - k)]))

/-- R144, first case: `n` payload bytes, all acknowledged, are written to the bus in order; the counter ends at 0 and the report
is `00`. This is the run under one schedule, the Engine's turns with each bus operation completing at once;
`WriteSequenceCountsUnacked` and `CallsInStep` speak of every schedule. -/
def Obligations.FullyAcknowledgedWrite : Prop :=
  ∀ (s : State) (ps rest : List Byte) (as : List Bool),
    s.st = .decode → s.op = 0x04 → s.bbusy = false → s.count ≠ 0 → ps.length = s.count.toNat →
    s.outq = ps ++ rest → s.acks = List.replicate ps.length true ++ as → s.inReady = true → s.bpend = none →
    runTurns ([.engine, .engine] ++ busThenEngine ps.length ++ [.engine]) s =
      .next { s with st := .idle, count := 0, outq := rest, consumed := s.consumed + ps.length,
                     inq := s.inq ++ [0x00], blog := s.blog ++ ackedWrites ps, back := true, acks := as,
                     turns := [], tick := s.tick + (2 * ps.length + 3) }

/-- R144, second case: the bus acknowledges the `k` bytes `ps` and not the next one, `q`. Exactly `k + 1` payload bytes are
consumed and written, the counter ends at `n - k`, the report is its low byte (the spec's decision D5, log 21), and the
leftover bytes are still in the outbound channel with the Engine in IDLE, which decodes them (R145). This is the run under
one schedule: the Engine's turns, with each bus operation completing at once. -/
def Obligations.WriteCutShortByNak : Prop :=
  ∀ (s : State) (ps rest : List Byte) (q : Byte) (as : List Bool),
    s.st = .decode → s.op = 0x04 → s.bbusy = false → ps.length < s.count.toNat →
    s.outq = ps ++ q :: rest → s.acks = List.replicate ps.length true ++ false :: as → s.inReady = true →
    s.bpend = none →
    runTurns ([.engine, .engine] ++ busThenEngine (ps.length + 1) ++ [.engine]) s =
      .next { s with st := .idle, count := BitVec.ofNat 16 (s.count.toNat - ps.length), outq := rest,
                     consumed := s.consumed + (ps.length + 1),
                     inq := s.inq ++ [BitVec.ofNat 8 (s.count.toNat - ps.length)],
                     blog := s.blog ++ ackedWrites ps ++ [.write q false], back := false, acks := as,
                     turns := [], tick := s.tick + (2 * ps.length + 5) }

/-- R163, in every interleaving, inbound room not assumed. The step of READ_FIRST begins a read of `n` bytes. While it is in
progress, with the `i - 1` bytes `ds` pushed, `i` reads have been issued, the `i`-th acknowledged unless `i = n`, and the
counter is `n - i`; every step of every agent keeps this, and `ds` grows by exactly the byte the Engine pushes. It ends with
`n` bytes read and pushed, all but the last acknowledged, in IDLE with the counter 0. And as a whole run under one schedule,
the Engine's turns with each bus operation completing at once, and inbound room for all of them: from DECODE, READ with the
counter `n` pushes the `n` bytes in the order they were received. -/
def Obligations.ReadSequence : Prop :=
  (∀ s t : State, s.turn = .engine → s.st = .readFirst → s.count ≠ 0 → step s = .next t →
    t.reading s.count.toNat s.blog [] ∧ t.inq = s.inq) ∧
  (∀ (s t : State) (n : Nat) (log : List BusEvent) (ds : List Byte),
    n ≤ 65535 → s.reading n log ds → step s = .next t →
    (t.reading n log ds ∧ (t.inq = s.inq ∨ s.turn = .driver)) ∨
    (∃ d, t.inq = s.inq ++ [d] ∧ (t.reading n log (ds ++ [d]) ∨ t.readDone n log (ds ++ [d])))) ∧
  (∀ (s : State) (d : Byte) (ds more : List Byte),
    s.st = .decode → s.op = 0x05 → s.bbusy = false → s.bpend = none → (d :: ds).length = s.count.toNat →
    s.reads = d :: ds ++ more → (∀ m, s.par.inDepth = some m → s.inq.length + (d :: ds).length ≤ m) →
    runTurns ([.engine, .engine] ++ busThenEngine (d :: ds).length) s =
      .next { s with st := .idle, count := 0, inq := s.inq ++ d :: ds, bbyte := (d :: ds).getLastD 0,
                     blog := s.blog ++ readEvents (d :: ds), reads := more,
                     turns := [], tick := s.tick + (2 * (d :: ds).length + 2) })

/-- R133 (b), C7: SET-COUNT 0 followed by WRITE or READ consumes only its four bytes, issues no bus operation and pushes
nothing; the counter is 0 after it. -/
def Obligations.ZeroCountIsNoOperation : Prop :=
  ∀ (s : State) (o : Byte) (rest : List Byte), o = 0x04 ∨ o = 0x05 →
    s.st = .idle → s.bbusy = false → s.outq = 0x03 :: 0x00 :: 0x00 :: o :: rest →
    runTurns [.engine, .engine, .engine, .engine, .engine, .engine] s =
      .next { s with op := o, count := 0, outq := rest, consumed := s.consumed + 4, turns := [], tick := s.tick + 6 }

/-! ## The Driver -/

/-- R181 (the spec's decision D10; numbers below 0 cannot be written, log 15): a call is admitted exactly when its arguments lie in their domains, and then keeps them. -/
def Obligations.AdmissionDomains : Prop :=
  (∀ (a : Nat) (d : List Nat) (p : Bool) (o : Op), admitCall (.write a d p) = .ok o ↔
    a ≤ 127 ∧ (∀ b ∈ d, b ≤ 255) ∧ d.length ≤ 65534 ∧ o = .write (BitVec.ofNat 7 a) (d.map (BitVec.ofNat 8)) p) ∧
  (∀ (a n : Nat) (p : Bool) (o : Op), admitCall (.read a n p) = .ok o ↔
    a ≤ 127 ∧ n ≤ 65535 ∧ o = .read (BitVec.ofNat 7 a) (BitVec.ofNat 16 n) p) ∧
  (∀ (a : Nat) (o : Op), admitCall (.poll a) = .ok o ↔ a ≤ 127 ∧ o = .poll (BitVec.ofNat 7 a)) ∧
  (∀ (a : Nat) (o : Op), admitCall (.deviceId a) = .ok o ↔ a ≤ 127 ∧ o = .deviceId (BitVec.ofNat 7 a))

/-- R227: a call that is not admitted pushes no byte, pops no byte, returns no value and marks the run refused; no step of any
agent takes the mark away. The Driver then goes on with the next call (log 14: that it does is the model's choice). -/
def Obligations.RefusedCallMarksTheRun : Prop :=
  (∀ (s : State) (c : Call) (rest : List Call) (r : RefuseReason),
    s.job = none → s.calls = c :: rest → admitCall c = .error r →
    driverStep s = { s with calls := rest, refusal := some (s.refusal.getD r) }) ∧
  (∀ (s t : State) (r : RefuseReason), s.refusal = some r → step s = .next t → t.refusal = some r)

/-- R182, R184: the outbound bytes of a write and of a read. -/
def Obligations.TransactionBytes : Prop :=
  (∀ (a : Addr) (d : List Byte) (p : Bool), d.length ≤ 65534 →
    (Txn.write a d p).bytes =
      [0x01, 0x03, BitVec.ofNat 8 ((1 + d.length) / 256), BitVec.ofNat 8 (1 + d.length), 0x04,
        BitVec.ofNat 8 (2 * a.toNat)] ++ d ++ (if p then [0x02] else [])) ∧
  (∀ (a : Addr) (n : Count) (p : Bool),
    (Txn.read a n p).bytes =
      [0x01, 0x03, 0x00, 0x01, 0x04, BitVec.ofNat 8 (2 * a.toNat + 1), 0x03, n.extractLsb' 8 8, n.extractLsb' 0 8,
        0x05] ++ (if p then [0x02] else []))

/-- R182, R184, R186, R187: which transactions a call is made of, `device_id` with its parameters. -/
def Obligations.CallTransactions : Prop :=
  ∀ (p : Params) (g : Stage) (k : Nat) (got : List Byte) (a : Addr),
    (∀ d stop, (Job.mk (.write a d stop) g k got).txn p = .write a d stop) ∧
    (∀ n stop, (Job.mk (.read a n stop) g k got).txn p = .read a n stop) ∧
    (Job.mk (.poll a) g k got).txn p = .write a [] true ∧
    (Job.mk (.deviceId a) .first k got).txn p =
      .write 0x7C
        [BitVec.ofNat 8 (match p.deviceIdTarget with | .addr => a.toNat | .addrShifted => 2 * a.toNat)]
        p.deviceIdWriteStop ∧
    (Job.mk (.deviceId a) .second k got).txn p = .read 0x7C 3 p.deviceIdReadStop

/-- R193: the bytes each operation pushes and pops. -/
def Obligations.ByteBudget : Prop :=
  (∀ (a : Addr) (d : List Byte) (p : Bool),
    (Txn.write a d p).bytes.length = 6 + d.length + (if p then 1 else 0) ∧ (Txn.write a d p).inbound = 1) ∧
  (∀ (a : Addr) (n : Count) (p : Bool),
    (Txn.read a n p).bytes.length = 10 + (if p then 1 else 0) ∧ (Txn.read a n p).inbound = 1 + n.toNat) ∧
  (∀ (p : Params) (a : Addr) (k : Nat) (got : List Byte),
    ((Job.mk (.poll a) .first k got).txn p).bytes.length = 7 ∧
    ((Job.mk (.poll a) .first k got).txn p).inbound = 1 ∧
    ((Job.mk (.deviceId a) .first k got).txn p).bytes.length = 7 + (if p.deviceIdWriteStop then 1 else 0) ∧
    ((Job.mk (.deviceId a) .second k got).txn p).bytes.length = 10 + (if p.deviceIdReadStop then 1 else 0) ∧
    ((Job.mk (.deviceId a) .first k got).txn p).inbound + ((Job.mk (.deviceId a) .second k got).txn p).inbound = 5)

/-- R55, R180: a call in progress pushes its transaction's bytes in order, one a step, suspended while the outbound channel is
full; once all are pushed it pops inbound bytes, suspended while there are none. That the pop of the last one is the same
step as the call's return, or as the start of its second transaction, is the model's choice (log 13). A Driver with no call
to run does nothing. -/
def Obligations.DriverMovesOneByteInOrder : Prop :=
  (∀ (s : State) (j : Job) (b : Byte), s.job = some j → (j.txn s.par).bytes[j.pos]? = some b →
    (s.outRoom = true →
      driverStep s = { s with outq := s.outq ++ [b], job := some { j with pos := j.pos + 1 } }) ∧
    (s.outRoom = false → driverStep s = s)) ∧
  (∀ (s : State) (j : Job), s.job = some j → (j.txn s.par).bytes.length ≤ j.pos →
    (s.inq = [] → driverStep s = s) ∧
    (∀ b rest, s.inq = b :: rest → j.got.length + 1 < (j.txn s.par).inbound →
      driverStep s = { s with inq := rest, job := some { j with got := j.got ++ [b] } }) ∧
    (∀ b rest r, s.inq = b :: rest → (j.txn s.par).inbound ≤ j.got.length + 1 → j.finish (j.got ++ [b]) = .done r →
      driverStep s = { s with inq := rest, job := none, results := s.results ++ [r] }) ∧
    (∀ b rest j', s.inq = b :: rest → (j.txn s.par).inbound ≤ j.got.length + 1 →
      j.finish (j.got ++ [b]) = .again j' →
      driverStep s = { s with inq := rest, job := some j' })) ∧
  (∀ s : State, s.job = none → s.calls = [] → driverStep s = s)

/-- R191, R180: an admitted call is taken up with its first byte, START, as soon as the outbound channel has room (log 13: that
the two are one step is the model's choice). -/
def Obligations.AdmittedCallStarts : Prop :=
  ∀ (s : State) (c : Call) (rest : List Call) (o : Op),
    s.job = none → s.calls = c :: rest → admitCall c = .ok o →
    (s.outRoom = true →
      driverStep s = { s with calls := rest, outq := s.outq ++ [0x01],
                              job := some { op := o, stage := .first, pos := 1, got := [] } }) ∧
    (s.outRoom = false → driverStep s = s)

/-- R183, R185, R186, R192, R195: what the status byte `st` and the data bytes `ds` make of a call: only equality of the status
with 0 is tested. -/
def Obligations.ResultsOfStatus : Prop :=
  ∀ (st : Byte) (ds : List Byte) (g : Stage) (k : Nat) (got : List Byte) (a : Addr),
    (∀ d p, (Job.mk (.write a d p) g k got).finish (st :: ds) = .done (.write (decide (st = 0)))) ∧
    (Job.mk (.poll a) g k got).finish (st :: ds) = .done (.poll (decide (st = 0))) ∧
    (∀ n p, (Job.mk (.read a n p) g k got).finish (st :: ds) = .done (.read (if st = 0 then some ds else none)))

/-- R187 and the spec's decision D12: `device_id` issues its read only after an acknowledged write, and returns the decoded triple exactly when both
status bytes are 0. -/
def Obligations.DeviceIdResult : Prop :=
  ∀ (st b0 b1 b2 : Byte) (k : Nat) (got : List Byte) (a : Addr),
    (Job.mk (.deviceId a) .first k got).finish [st] =
      (if st = 0 then .again { op := .deviceId a, stage := .second, pos := 0, got := [] } else .done (.deviceId none)) ∧
    (Job.mk (.deviceId a) .second k got).finish [st, b0, b1, b2] =
      .done (.deviceId (if st = 0 then some (deviceIdDecode b0 b1 b2) else none))

/-- R188: the three fields of the Device-ID response are bits 23 to 12, 11 to 3 and 2 to 0 of its 24 bits, which they cover
without overlap (the last is the spec's own inference, "12 + 9 + 3 = 24"). -/
def Obligations.DeviceIdFields : Prop :=
  ∀ b0 b1 b2 : Byte,
    let v : BitVec 24 := b0 ++ b1 ++ b2
    (deviceIdDecode b0 b1 b2).manufacturer = v.extractLsb' 12 12 ∧
    (deviceIdDecode b0 b1 b2).partIdent = v.extractLsb' 3 9 ∧
    (deviceIdDecode b0 b1 b2).revision = v.extractLsb' 0 3 ∧
    (deviceIdDecode b0 b1 b2).manufacturer ++ (deviceIdDecode b0 b1 b2).partIdent ++
      (deviceIdDecode b0 b1 b2).revision = v

/-- R180, R193: a call pushes all the bytes of its running transaction before it pops any, and never pops more than its budget:
every step of every agent keeps it. -/
def Obligations.CallStaysInsideItsTransaction : Prop :=
  ∀ s t : State, s.jobInv → step s = .next t → t.jobInv

/-- R181, C4: the data of a call in progress always fits the 16-bit count: every step of every agent keeps it. -/
def Obligations.CallDataFitsTheCount : Prop :=
  ∀ s t : State, s.dataInv → step s = .next t → t.dataInv

/-- R31, R32, R180: what each agent writes and reads. A Driver step writes no Engine register and nothing of the bus, and moves
at most one byte: it pushes one outbound or pops one inbound; and what it does to its own state and the channels depends on
nothing but these and the parameters. An Engine step writes no Driver state, no output of the Bus Primitive and no trace, and
reads no Driver state, no trace and no answer of the devices. The Bus agent writes and reads no Driver state, no Engine
register and no channel. -/
def Obligations.AgentsShareOnlyTheChannels : Prop :=
  (∀ s : State,
    let t := driverStep s
    sameEngine s t ∧ sameFlight s t ∧ sameBusOutputs s t ∧ sameDraws s t ∧ sameSetting s t ∧
    ((t.outq = s.outq ∧ t.inq = s.inq) ∨ (t.inq = s.inq ∧ ∃ b, t.outq = s.outq ++ [b]) ∨
     (t.outq = s.outq ∧ ∃ b, s.inq = b :: t.inq))) ∧
  (∀ s u : State, sameDriver s u → u.outq = s.outq → u.inq = s.inq → u.par = s.par →
    sameDriver (driverStep s) (driverStep u) ∧ (driverStep u).outq = (driverStep s).outq ∧
    (driverStep u).inq = (driverStep s).inq) ∧
  (∀ s t : State, engineStep s = .next t →
    sameDriver s t ∧ sameBusOutputs s t ∧ sameDraws s t ∧ sameSetting s t) ∧
  (∀ s t u : State, sameEngine s u → sameFlight s u → u.back = s.back → u.bbyte = s.bbyte → u.outq = s.outq →
    u.inq = s.inq → u.par = s.par → engineStep s = .next t →
    ∃ w, engineStep u = .next w ∧ sameEngine t w ∧ sameFlight t w ∧ w.outq = t.outq ∧ w.inq = t.inq) ∧
  (∀ s : State,
    let t := busStep s
    sameDriver s t ∧ sameEngine s t ∧ t.outq = s.outq ∧ t.inq = s.inq ∧ sameSetting s t) ∧
  (∀ s u : State, sameFlight s u → sameBusOutputs s u → sameDraws s u →
    sameFlight (busStep s) (busStep u) ∧ sameBusOutputs (busStep s) (busStep u) ∧ sameDraws (busStep s) (busStep u))

/-- R186, T4, in every schedule (R100) that gives every agent its turn again and again (R108), for all channel capacities and
both starved modes: `poll` from a clean entry ends with the device's acknowledgement as its result, a start, the address byte
and a stop on the bus, and the run over. -/
def Obligations.PollTellsTheAcknowledgement : Prop :=
  ∀ (s : State) (a : Addr) (ack : Bool) (as : List Bool),
    s.cleanEntry → s.bpend = none → s.par.wf = true → s.calls = [.poll a.toNat] → s.acks = ack :: as →
    endsIn s fun t =>
      t.results = s.results ++ [.poll ack] ∧
      t.blog = s.blog ++ [.start, .write (BitVec.ofNat 8 (2 * a.toNat)) ack, .stop] ∧
      t.runOver = true ∧ t.cleanEntry

/-- R252 (a hold is a step that changes nothing: log 2): where no agent has an enabled step, no step of any agent changes anything but the schedule: the run is over or
stuck for good, until the host makes another call. -/
def Obligations.HaltedRunStays : Prop :=
  ∀ s : State, s.halted = true →
    step s = .next s.advance ∧ s.advance.halted = true ∧ (s.runOver = true ∨ s.runStuck = true)

/-- R194, with R183, R185, R186, R187, for any number of calls made one after the other from a clean entry, in every schedule
(R100) that gives every agent its turn again and again (R108), for all channel capacities and all answers of the devices.
Where the calls are admitted and in step, that is, no leftover byte of a write cut short is an opcode, in mode `hold` or where
no starved step occurs, the run ends over, in a clean entry again, with exactly the results and the bus trace that `outcomes`
gives: each call's bus operations in order, the reported low byte tested for 0 (the spec's decisions D5, D12, D13). -/
def Obligations.CallsInStep : Prop :=
  ∀ (s : State) (os : List Op),
    s.cleanEntry → s.bpend = none → s.par.wf = true → s.calls.map admitCall = os.map .ok →
    allInStep s.par s.busView os →
    (s.par.starvedWrite = .hold ∨ ∀ turns t, runTurns turns s = .next t → t.starved = false) →
    endsIn s fun t =>
      t.results = s.results ++ (outcomes s.par s.busView os).1 ∧ t.busView = (outcomes s.par s.busView os).2 ∧
      t.runOver = true ∧ t.cleanEntry
end

