-- ==== Sys2Proof/Laws/State.lean ====
section
/-! SUPPORT. Every update of the state, field by field: what each field is after it. -/

namespace Sys2Proof
namespace Machine

/-! ## `pushIn` -/

@[simp] theorem pushIn_par (s : State) (b : Byte) : (s.pushIn b).par = s.par := rfl
@[simp] theorem pushIn_st (s : State) (b : Byte) : (s.pushIn b).st = s.st := rfl
@[simp] theorem pushIn_count (s : State) (b : Byte) : (s.pushIn b).count = s.count := rfl
@[simp] theorem pushIn_op (s : State) (b : Byte) : (s.pushIn b).op = s.op := rfl
@[simp] theorem pushIn_consumed (s : State) (b : Byte) : (s.pushIn b).consumed = s.consumed := rfl
@[simp] theorem pushIn_outq (s : State) (b : Byte) : (s.pushIn b).outq = s.outq := rfl
@[simp] theorem pushIn_inq (s : State) (b : Byte) : (s.pushIn b).inq = s.inq ++ [b] := rfl
@[simp] theorem pushIn_bbusy (s : State) (b : Byte) : (s.pushIn b).bbusy = s.bbusy := rfl
@[simp] theorem pushIn_bpend (s : State) (b : Byte) : (s.pushIn b).bpend = s.bpend := rfl
@[simp] theorem pushIn_back (s : State) (b : Byte) : (s.pushIn b).back = s.back := rfl
@[simp] theorem pushIn_bbyte (s : State) (b : Byte) : (s.pushIn b).bbyte = s.bbyte := rfl
@[simp] theorem pushIn_blog (s : State) (b : Byte) : (s.pushIn b).blog = s.blog := rfl
@[simp] theorem pushIn_calls (s : State) (b : Byte) : (s.pushIn b).calls = s.calls := rfl
@[simp] theorem pushIn_job (s : State) (b : Byte) : (s.pushIn b).job = s.job := rfl
@[simp] theorem pushIn_results (s : State) (b : Byte) : (s.pushIn b).results = s.results := rfl
@[simp] theorem pushIn_refusal (s : State) (b : Byte) : (s.pushIn b).refusal = s.refusal := rfl
@[simp] theorem pushIn_turns (s : State) (b : Byte) : (s.pushIn b).turns = s.turns := rfl
@[simp] theorem pushIn_tick (s : State) (b : Byte) : (s.pushIn b).tick = s.tick := rfl
@[simp] theorem pushIn_acks (s : State) (b : Byte) : (s.pushIn b).acks = s.acks := rfl
@[simp] theorem pushIn_reads (s : State) (b : Byte) : (s.pushIn b).reads = s.reads := rfl

/-! ## `pushOut` -/

@[simp] theorem pushOut_par (s : State) (b : Byte) : (s.pushOut b).par = s.par := rfl
@[simp] theorem pushOut_st (s : State) (b : Byte) : (s.pushOut b).st = s.st := rfl
@[simp] theorem pushOut_count (s : State) (b : Byte) : (s.pushOut b).count = s.count := rfl
@[simp] theorem pushOut_op (s : State) (b : Byte) : (s.pushOut b).op = s.op := rfl
@[simp] theorem pushOut_consumed (s : State) (b : Byte) : (s.pushOut b).consumed = s.consumed := rfl
@[simp] theorem pushOut_outq (s : State) (b : Byte) : (s.pushOut b).outq = s.outq ++ [b] := rfl
@[simp] theorem pushOut_inq (s : State) (b : Byte) : (s.pushOut b).inq = s.inq := rfl
@[simp] theorem pushOut_bbusy (s : State) (b : Byte) : (s.pushOut b).bbusy = s.bbusy := rfl
@[simp] theorem pushOut_bpend (s : State) (b : Byte) : (s.pushOut b).bpend = s.bpend := rfl
@[simp] theorem pushOut_back (s : State) (b : Byte) : (s.pushOut b).back = s.back := rfl
@[simp] theorem pushOut_bbyte (s : State) (b : Byte) : (s.pushOut b).bbyte = s.bbyte := rfl
@[simp] theorem pushOut_blog (s : State) (b : Byte) : (s.pushOut b).blog = s.blog := rfl
@[simp] theorem pushOut_calls (s : State) (b : Byte) : (s.pushOut b).calls = s.calls := rfl
@[simp] theorem pushOut_job (s : State) (b : Byte) : (s.pushOut b).job = s.job := rfl
@[simp] theorem pushOut_results (s : State) (b : Byte) : (s.pushOut b).results = s.results := rfl
@[simp] theorem pushOut_refusal (s : State) (b : Byte) : (s.pushOut b).refusal = s.refusal := rfl
@[simp] theorem pushOut_turns (s : State) (b : Byte) : (s.pushOut b).turns = s.turns := rfl
@[simp] theorem pushOut_tick (s : State) (b : Byte) : (s.pushOut b).tick = s.tick := rfl
@[simp] theorem pushOut_acks (s : State) (b : Byte) : (s.pushOut b).acks = s.acks := rfl
@[simp] theorem pushOut_reads (s : State) (b : Byte) : (s.pushOut b).reads = s.reads := rfl

/-! ## `strobe` -/

@[simp] theorem strobe_par (s : State) (o : BusOp) : (s.strobe o).par = s.par := rfl
@[simp] theorem strobe_st (s : State) (o : BusOp) : (s.strobe o).st = s.st := rfl
@[simp] theorem strobe_count (s : State) (o : BusOp) : (s.strobe o).count = s.count := rfl
@[simp] theorem strobe_op (s : State) (o : BusOp) : (s.strobe o).op = s.op := rfl
@[simp] theorem strobe_consumed (s : State) (o : BusOp) : (s.strobe o).consumed = s.consumed := rfl
@[simp] theorem strobe_outq (s : State) (o : BusOp) : (s.strobe o).outq = s.outq := rfl
@[simp] theorem strobe_inq (s : State) (o : BusOp) : (s.strobe o).inq = s.inq := rfl
@[simp] theorem strobe_bbusy (s : State) (o : BusOp) : (s.strobe o).bbusy = true := rfl
@[simp] theorem strobe_bpend (s : State) (o : BusOp) : (s.strobe o).bpend = some o := rfl
@[simp] theorem strobe_back (s : State) (o : BusOp) : (s.strobe o).back = s.back := rfl
@[simp] theorem strobe_bbyte (s : State) (o : BusOp) : (s.strobe o).bbyte = s.bbyte := rfl
@[simp] theorem strobe_blog (s : State) (o : BusOp) : (s.strobe o).blog = s.blog := rfl
@[simp] theorem strobe_calls (s : State) (o : BusOp) : (s.strobe o).calls = s.calls := rfl
@[simp] theorem strobe_job (s : State) (o : BusOp) : (s.strobe o).job = s.job := rfl
@[simp] theorem strobe_results (s : State) (o : BusOp) : (s.strobe o).results = s.results := rfl
@[simp] theorem strobe_refusal (s : State) (o : BusOp) : (s.strobe o).refusal = s.refusal := rfl
@[simp] theorem strobe_turns (s : State) (o : BusOp) : (s.strobe o).turns = s.turns := rfl
@[simp] theorem strobe_tick (s : State) (o : BusOp) : (s.strobe o).tick = s.tick := rfl
@[simp] theorem strobe_acks (s : State) (o : BusOp) : (s.strobe o).acks = s.acks := rfl
@[simp] theorem strobe_reads (s : State) (o : BusOp) : (s.strobe o).reads = s.reads := rfl

/-! ## `goto` -/

@[simp] theorem goto_par (s : State) (f : FsmState) : (s.goto f).par = s.par := rfl
@[simp] theorem goto_st (s : State) (f : FsmState) : (s.goto f).st = f := rfl
@[simp] theorem goto_count (s : State) (f : FsmState) : (s.goto f).count = s.count := rfl
@[simp] theorem goto_op (s : State) (f : FsmState) : (s.goto f).op = s.op := rfl
@[simp] theorem goto_consumed (s : State) (f : FsmState) : (s.goto f).consumed = s.consumed := rfl
@[simp] theorem goto_outq (s : State) (f : FsmState) : (s.goto f).outq = s.outq := rfl
@[simp] theorem goto_inq (s : State) (f : FsmState) : (s.goto f).inq = s.inq := rfl
@[simp] theorem goto_bbusy (s : State) (f : FsmState) : (s.goto f).bbusy = s.bbusy := rfl
@[simp] theorem goto_bpend (s : State) (f : FsmState) : (s.goto f).bpend = s.bpend := rfl
@[simp] theorem goto_back (s : State) (f : FsmState) : (s.goto f).back = s.back := rfl
@[simp] theorem goto_bbyte (s : State) (f : FsmState) : (s.goto f).bbyte = s.bbyte := rfl
@[simp] theorem goto_blog (s : State) (f : FsmState) : (s.goto f).blog = s.blog := rfl
@[simp] theorem goto_calls (s : State) (f : FsmState) : (s.goto f).calls = s.calls := rfl
@[simp] theorem goto_job (s : State) (f : FsmState) : (s.goto f).job = s.job := rfl
@[simp] theorem goto_results (s : State) (f : FsmState) : (s.goto f).results = s.results := rfl
@[simp] theorem goto_refusal (s : State) (f : FsmState) : (s.goto f).refusal = s.refusal := rfl
@[simp] theorem goto_turns (s : State) (f : FsmState) : (s.goto f).turns = s.turns := rfl
@[simp] theorem goto_tick (s : State) (f : FsmState) : (s.goto f).tick = s.tick := rfl
@[simp] theorem goto_acks (s : State) (f : FsmState) : (s.goto f).acks = s.acks := rfl
@[simp] theorem goto_reads (s : State) (f : FsmState) : (s.goto f).reads = s.reads := rfl

/-! ## `busDone` -/

@[simp] theorem busDone_par (s : State) : (s.busDone).par = s.par := rfl
@[simp] theorem busDone_st (s : State) : (s.busDone).st = s.st := rfl
@[simp] theorem busDone_count (s : State) : (s.busDone).count = s.count := rfl
@[simp] theorem busDone_op (s : State) : (s.busDone).op = s.op := rfl
@[simp] theorem busDone_consumed (s : State) : (s.busDone).consumed = s.consumed := rfl
@[simp] theorem busDone_outq (s : State) : (s.busDone).outq = s.outq := rfl
@[simp] theorem busDone_inq (s : State) : (s.busDone).inq = s.inq := rfl
@[simp] theorem busDone_bbusy (s : State) : (s.busDone).bbusy = false := rfl
@[simp] theorem busDone_bpend (s : State) : (s.busDone).bpend = none := rfl
@[simp] theorem busDone_back (s : State) : (s.busDone).back = s.back := rfl
@[simp] theorem busDone_bbyte (s : State) : (s.busDone).bbyte = s.bbyte := rfl
@[simp] theorem busDone_blog (s : State) : (s.busDone).blog = s.blog := rfl
@[simp] theorem busDone_calls (s : State) : (s.busDone).calls = s.calls := rfl
@[simp] theorem busDone_job (s : State) : (s.busDone).job = s.job := rfl
@[simp] theorem busDone_results (s : State) : (s.busDone).results = s.results := rfl
@[simp] theorem busDone_refusal (s : State) : (s.busDone).refusal = s.refusal := rfl
@[simp] theorem busDone_turns (s : State) : (s.busDone).turns = s.turns := rfl
@[simp] theorem busDone_tick (s : State) : (s.busDone).tick = s.tick := rfl
@[simp] theorem busDone_acks (s : State) : (s.busDone).acks = s.acks := rfl
@[simp] theorem busDone_reads (s : State) : (s.busDone).reads = s.reads := rfl

/-! ## `advance` -/

@[simp] theorem advance_par (s : State) : (s.advance).par = s.par := rfl
@[simp] theorem advance_st (s : State) : (s.advance).st = s.st := rfl
@[simp] theorem advance_count (s : State) : (s.advance).count = s.count := rfl
@[simp] theorem advance_op (s : State) : (s.advance).op = s.op := rfl
@[simp] theorem advance_consumed (s : State) : (s.advance).consumed = s.consumed := rfl
@[simp] theorem advance_outq (s : State) : (s.advance).outq = s.outq := rfl
@[simp] theorem advance_inq (s : State) : (s.advance).inq = s.inq := rfl
@[simp] theorem advance_bbusy (s : State) : (s.advance).bbusy = s.bbusy := rfl
@[simp] theorem advance_bpend (s : State) : (s.advance).bpend = s.bpend := rfl
@[simp] theorem advance_back (s : State) : (s.advance).back = s.back := rfl
@[simp] theorem advance_bbyte (s : State) : (s.advance).bbyte = s.bbyte := rfl
@[simp] theorem advance_blog (s : State) : (s.advance).blog = s.blog := rfl
@[simp] theorem advance_calls (s : State) : (s.advance).calls = s.calls := rfl
@[simp] theorem advance_job (s : State) : (s.advance).job = s.job := rfl
@[simp] theorem advance_results (s : State) : (s.advance).results = s.results := rfl
@[simp] theorem advance_refusal (s : State) : (s.advance).refusal = s.refusal := rfl
@[simp] theorem advance_turns (s : State) : (s.advance).turns = s.turns.tail := rfl
@[simp] theorem advance_tick (s : State) : (s.advance).tick = s.tick + 1 := rfl
@[simp] theorem advance_acks (s : State) : (s.advance).acks = s.acks := rfl
@[simp] theorem advance_reads (s : State) : (s.advance).reads = s.reads := rfl

/-! ## `withTurns` -/

@[simp] theorem withTurns_par (s : State) (l : List Agent) : (s.withTurns l).par = s.par := rfl
@[simp] theorem withTurns_st (s : State) (l : List Agent) : (s.withTurns l).st = s.st := rfl
@[simp] theorem withTurns_count (s : State) (l : List Agent) : (s.withTurns l).count = s.count := rfl
@[simp] theorem withTurns_op (s : State) (l : List Agent) : (s.withTurns l).op = s.op := rfl
@[simp] theorem withTurns_consumed (s : State) (l : List Agent) : (s.withTurns l).consumed = s.consumed := rfl
@[simp] theorem withTurns_outq (s : State) (l : List Agent) : (s.withTurns l).outq = s.outq := rfl
@[simp] theorem withTurns_inq (s : State) (l : List Agent) : (s.withTurns l).inq = s.inq := rfl
@[simp] theorem withTurns_bbusy (s : State) (l : List Agent) : (s.withTurns l).bbusy = s.bbusy := rfl
@[simp] theorem withTurns_bpend (s : State) (l : List Agent) : (s.withTurns l).bpend = s.bpend := rfl
@[simp] theorem withTurns_back (s : State) (l : List Agent) : (s.withTurns l).back = s.back := rfl
@[simp] theorem withTurns_bbyte (s : State) (l : List Agent) : (s.withTurns l).bbyte = s.bbyte := rfl
@[simp] theorem withTurns_blog (s : State) (l : List Agent) : (s.withTurns l).blog = s.blog := rfl
@[simp] theorem withTurns_calls (s : State) (l : List Agent) : (s.withTurns l).calls = s.calls := rfl
@[simp] theorem withTurns_job (s : State) (l : List Agent) : (s.withTurns l).job = s.job := rfl
@[simp] theorem withTurns_results (s : State) (l : List Agent) : (s.withTurns l).results = s.results := rfl
@[simp] theorem withTurns_refusal (s : State) (l : List Agent) : (s.withTurns l).refusal = s.refusal := rfl
@[simp] theorem withTurns_turns (s : State) (l : List Agent) : (s.withTurns l).turns = l := rfl
@[simp] theorem withTurns_tick (s : State) (l : List Agent) : (s.withTurns l).tick = s.tick := rfl
@[simp] theorem withTurns_acks (s : State) (l : List Agent) : (s.withTurns l).acks = s.acks := rfl
@[simp] theorem withTurns_reads (s : State) (l : List Agent) : (s.withTurns l).reads = s.reads := rfl

end Machine
end Sys2Proof
end

