-- ==== Sys2Proof/Laws/Ops.lean ====
section
/-! SUPPORT. One lemma for each shared operation: everything it can do. -/

namespace Sys2Proof
namespace Machine

/-! ## Channels -/

@[simp] theorem popOut_of_nil {s : State} (h : s.outq = []) : s.popOut = none := by
  simp [State.popOut, h]

@[simp] theorem popOut_of_cons {s : State} {b : Byte} {rest : List Byte} (h : s.outq = b :: rest) :
    s.popOut = some (b, { s with outq := rest, consumed := s.consumed + 1 }) := by
  simp [State.popOut, h]

/-- A pop takes the head of the outbound channel and counts it, and changes nothing else. -/
theorem popOut_cases (s : State) :
    (s.outq = [] ∧ s.popOut = none) ∨
    (∃ b rest, s.outq = b :: rest ∧
      s.popOut = some (b, { s with outq := rest, consumed := s.consumed + 1 })) := by
  cases h : s.outq with
  | nil => exact .inl ⟨rfl, popOut_of_nil h⟩
  | cons b rest => exact .inr ⟨b, rest, rfl, popOut_of_cons h⟩

@[simp] theorem outAvail_eq_false {s : State} : s.outAvail = false ↔ s.outq = [] := by
  simp [State.outAvail]

@[simp] theorem outAvail_eq_true {s : State} : s.outAvail = true ↔ s.outq ≠ [] := by
  simp [State.outAvail]

/-- There is room exactly where the channel holds less than its capacity. -/
theorem hasRoom_iff (depth : Option Nat) (q : List Byte) :
    hasRoom depth q = true ↔ ∀ d, depth = some d → q.length < d := by
  cases depth <;> simp [hasRoom]

/-- A byte added where there is room still fits. -/
theorem fits_snoc {depth : Option Nat} {q : List Byte} (b : Byte) (h : hasRoom depth q = true) :
    fits depth (q ++ [b]) := by
  intro d hd
  have := (hasRoom_iff depth q).1 h d hd
  simp
  omega

/-- A channel that lost its head still fits. -/
theorem fits_tail {depth : Option Nat} {b : Byte} {q : List Byte} (h : fits depth (b :: q)) : fits depth q := by
  intro d hd
  have := h d hd
  simp at this
  omega

@[simp] theorem countIsZero_eq {s : State} : s.countIsZero = decide (s.count = 0) := by
  rw [State.countIsZero]
  exact beq_eq_decide ..

@[simp] theorem countIsOne_eq {s : State} : s.countIsOne = decide (s.count = 1) := by
  rw [State.countIsOne]
  exact beq_eq_decide ..

/-! ## The states of the Engine -/

/-- IDLE takes the head of the outbound channel, or holds. -/
theorem idleStep_cases (s : State) :
    idleStep s = s ∨
    (s.bbusy = false ∧ ∃ b rest, s.outq = b :: rest ∧
      idleStep s = { s with op := b, st := .decode, outq := rest, consumed := s.consumed + 1 }) := by
  unfold idleStep
  by_cases hb : s.bbusy = true
  · simp [hb]
  · obtain ⟨h, hp⟩ | ⟨b, rest, h, hp⟩ := popOut_cases s
    · simp [hp]
    · exact .inr ⟨by simpa using hb, b, rest, h, by simp [hp, hb, State.goto]⟩

/-- DECODE, by the value of the latch. -/
theorem decodeStep_eq (s : State) :
    decodeStep s =
      if s.op = 0x01 then execStart s
      else if s.op = 0x02 then execStop s
      else if s.op = 0x03 then .next (setCountDecode s)
      else if s.op = 0x04 then execWrite s
      else if s.op = 0x05 then execRead s
      else .next (s.goto .idle) := by
  simp only [decodeStep, decode]
  split_ifs <;> rfl

/-- COUNT_HIGH takes a byte into the high half of the counter, or holds. -/
theorem countHighStep_cases (s : State) :
    countHighStep s = s ∨
    ∃ b rest, s.outq = b :: rest ∧
      countHighStep s =
        { s with outq := rest, consumed := s.consumed + 1, count := withCountHi s.count b, st := .countLow } := by
  unfold countHighStep
  obtain ⟨h, hp⟩ | ⟨b, rest, h, hp⟩ := popOut_cases s
  · simp [hp]
  · exact .inr ⟨b, rest, h, by simp only [hp]; rfl⟩

/-- COUNT_LOW runs SET-COUNT with the byte it takes, or holds. -/
theorem countLowStep_cases (s : State) :
    (s.outq = [] ∧ countLowStep s = .next s) ∨
    ∃ b rest, s.outq = b :: rest ∧
      countLowStep s =
        .next { s with outq := rest, consumed := s.consumed + 1,
                       count := BitVec.ofNat 16 (countOperand (countHi s.count) b), st := .idle } := by
  unfold countLowStep
  obtain ⟨h, hp⟩ | ⟨b, rest, h, hp⟩ := popOut_cases s
  · exact .inl ⟨h, by simp only [hp]⟩
  · exact .inr ⟨b, rest, h, by simp [hp, exec, execSetCount, State.goto]⟩

/-- WRITE_FIRST sends the head of the outbound channel, or holds. -/
theorem writeFirstStep_cases (s : State) :
    (s.outq = [] ∧ writeFirstStep s = s) ∨
    ∃ b rest, s.outq = b :: rest ∧
      writeFirstStep s =
        { s with outq := rest, consumed := s.consumed + 1, bbusy := true, bpend := some (.write b), st := .write } := by
  unfold writeFirstStep
  obtain ⟨h, hp⟩ | ⟨b, rest, h, hp⟩ := popOut_cases s
  · exact .inl ⟨h, by simp only [hp]⟩
  · exact .inr ⟨b, rest, h, by simp only [hp]; rfl⟩

/-- State WRITE: hold, report a byte not acknowledged, report the last byte, send the next byte, or wait for it. -/
theorem writeStep_cases (s : State) :
    (s.bbusy = true ∧ writeStep s = s) ∨
    (s.bbusy = false ∧ s.back = false ∧ writeStep s = { s with st := .report }) ∨
    (s.bbusy = false ∧ s.back = true ∧ s.count = 1 ∧ writeStep s = { s with count := s.count - 1, st := .report }) ∨
    (s.bbusy = false ∧ s.back = true ∧ s.count ≠ 1 ∧
      ((∃ b rest, s.outq = b :: rest ∧
        writeStep s =
          { s with outq := rest, consumed := s.consumed + 1, count := s.count - 1, bbusy := true,
                   bpend := some (.write b) }) ∨
       (s.outq = [] ∧ s.par.starvedWrite = .hold ∧ writeStep s = s) ∨
       (s.outq = [] ∧ s.par.starvedWrite = .redecrement ∧ writeStep s = { s with count := s.count - 1 }))) := by
  simp only [writeStep, countIsOne_eq]
  by_cases hb : s.bbusy = true
  · simp [hb]
  · refine .inr ?_
    rw [Bool.not_eq_true] at hb
    by_cases ha : s.back = true
    · refine .inr ?_
      by_cases hc : s.count = 1
      · exact .inl ⟨hb, ha, hc, by simp [hb, ha, hc, State.goto]⟩
      · refine .inr ⟨hb, ha, hc, ?_⟩
        obtain ⟨h, hp⟩ | ⟨b, rest, h, hp⟩ := popOut_cases s
        · refine .inr ?_
          cases hm : s.par.starvedWrite
          · exact .inl ⟨h, rfl, by simp only [hb, ha, hc, hp, starvedStep, hm]; rfl⟩
          · exact .inr ⟨h, rfl, by simp only [hb, ha, hc, hp, starvedStep, hm]; rfl⟩
        · exact .inl ⟨b, rest, h, by simp only [hb, ha, hc, hp]; rfl⟩
    · rw [Bool.not_eq_true] at ha
      exact .inl ⟨hb, ha, by simp [hb, ha, State.goto]⟩

/-- REPORT pushes the low byte of the counter, or holds. -/
theorem reportStep_cases (s : State) :
    (s.inReady = false ∧ reportStep s = s) ∨
    (s.inReady = true ∧ reportStep s = { s with inq := s.inq ++ [countLo s.count], st := .idle }) := by
  unfold reportStep
  cases h : s.inReady <;> simp [State.goto, State.pushIn]

/-- READ_FIRST requests a byte. -/
theorem readFirstStep_eq (s : State) :
    readFirstStep s =
      { s with count := s.count - 1, bbusy := true, bpend := some (.read (!decide (s.count = 1))), st := .read } := by
  simp [readFirstStep, requestByte, State.goto, State.strobe]

/-- READ: hold, push the last byte, or push a byte and request the next. -/
theorem readStep_cases (s : State) :
    ((s.bbusy = true ∨ s.inReady = false) ∧ readStep s = s) ∨
    (s.bbusy = false ∧ s.inReady = true ∧ s.count = 0 ∧
      readStep s = { s with inq := s.inq ++ [s.bbyte], st := .idle }) ∨
    (s.bbusy = false ∧ s.inReady = true ∧ s.count ≠ 0 ∧
      readStep s =
        { s with inq := s.inq ++ [s.bbyte], count := s.count - 1, bbusy := true,
                 bpend := some (.read (!decide (s.count = 1))) }) := by
  simp only [readStep, countIsZero_eq]
  by_cases hb : s.bbusy = true
  · simp [hb]
  · rw [Bool.not_eq_true] at hb
    by_cases hr : s.inReady = true
    · refine .inr ?_
      by_cases hc : s.count = 0
      · exact .inl ⟨hb, hr, hc, by simp [hb, hr, hc, State.goto, State.pushIn]⟩
      · exact .inr ⟨hb, hr, hc, by simp only [hb, hr, hc, requestByte, State.countIsOne]; rfl⟩
    · simp [hr]

/-! ## The Bus agent and the Driver -/

/-- A Bus agent's step completes the operation in flight. -/
theorem busStep_cases (s : State) :
    (s.bbusy = false ∧ busStep s = s) ∨
    (s.bbusy = true ∧ s.bpend = none ∧ busStep s = { s with bbusy := false, bpend := none }) ∨
    (∃ o, s.bbusy = true ∧ s.bpend = some o ∧ busStep s = (s.complete o).busDone) := by
  unfold busStep
  cases hb : s.bbusy
  · simp
  · cases hp : s.bpend <;> simp [State.busDone]

/-- A completion adds one event to the trace and sets one output at most. -/
theorem complete_cases (s : State) (o : BusOp) :
    (o = .start ∧ s.complete o = { s with blog := s.blog ++ [.start] }) ∨
    (o = .stop ∧ s.complete o = { s with blog := s.blog ++ [.stop] }) ∨
    (∃ b, o = .write b ∧
      s.complete o =
        { s with back := s.drawAck b, blog := s.blog ++ [.write b (s.drawAck b)], acks := s.acks.tail }) ∨
    (∃ a, o = .read a ∧
      s.complete o =
        { s with bbyte := s.drawByte a, blog := s.blog ++ [.read a (s.drawByte a)], reads := s.reads.tail }) := by
  cases o <;> simp [State.complete]

/-- After the last inbound byte of a transaction the call goes on popping, returns, or starts its second transaction. -/
theorem afterPop_cases (s : State) (j : Job) (got : List Byte) :
    (got.length < (j.txn s.par).inbound ∧ afterPop s j got = { s with job := some { j with got := got } }) ∨
    ((j.txn s.par).inbound ≤ got.length ∧
      ((∃ r, j.finish got = .done r ∧ afterPop s j got = { s with job := none, results := s.results ++ [r] }) ∨
       (∃ j', j.finish got = .again j' ∧ afterPop s j got = { s with job := some j' }))) := by
  unfold afterPop
  by_cases h : got.length < (j.txn s.par).inbound
  · simp [h]
  · cases hf : j.finish got <;> simp [h] <;> omega

/-- A call in progress pushes its next byte, or pops the next inbound byte once all are pushed. -/
theorem jobMove_cases (s : State) (j : Job) :
    jobMove s j = none ∨
    (∃ b, (j.txn s.par).bytes[j.pos]? = some b ∧ s.outRoom = true ∧
      jobMove s j = some { s with outq := s.outq ++ [b], job := some { j with pos := j.pos + 1 } }) ∨
    (∃ b rest, (j.txn s.par).bytes.length ≤ j.pos ∧ s.inq = b :: rest ∧
      jobMove s j = some (afterPop { s with inq := rest } j (j.got ++ [b]))) := by
  unfold jobMove
  cases hb : (j.txn s.par).bytes[j.pos]? with
  | some b => cases hr : s.outRoom <;> simp [State.pushOut]
  | none =>
    have := List.getElem?_eq_none_iff.1 hb
    cases hq : s.inq <;> simp [this]

/-- A Driver's step: nothing, a byte of the call in progress, a refused call, or the first byte of an admitted one. -/
theorem driverStep_cases (s : State) :
    driverStep s = s ∨
    (∃ j t, s.job = some j ∧ jobMove s j = some t ∧ driverStep s = t) ∨
    (∃ c rest r, s.job = none ∧ s.calls = c :: rest ∧ admitCall c = .error r ∧
      driverStep s = { s with calls := rest, refusal := s.refusal.or (some r) }) ∨
    (∃ c rest o t, s.job = none ∧ s.calls = c :: rest ∧ admitCall c = .ok o ∧
      jobMove { s with calls := rest } (Job.init o) = some t ∧ driverStep s = t) := by
  simp only [driverStep, driverMove]
  rcases hj : s.job with _ | j
  · rcases hc : s.calls with _ | ⟨c, rest⟩
    · exact .inl rfl
    · rcases ha : admitCall c with r | o
      · exact .inr (.inr (.inl ⟨c, rest, r, rfl, rfl, ha, by simp only [ha]; rfl⟩))
      · rcases hm : jobMove { s with calls := rest } (Job.init o) with _ | t
        · exact .inl (by rw [hj] at hm; simp only [ha, hm]; rfl)
        · exact .inr (.inr (.inr ⟨c, rest, o, t, rfl, rfl, ha, hm, by rw [hj] at hm; simp only [ha, hm]; rfl⟩))
  · rcases hm : jobMove s j with _ | t
    · exact .inl (by simp only [hm]; rfl)
    · exact .inr (.inl ⟨j, t, rfl, hm, by simp only [hm]; rfl⟩)

/-! ## The step -/

/-- A step is the step of the agent whose turn it is. -/
theorem step_cases {s t : State} (h : step s = .next t) :
    (s.turn = .engine ∧ engineStep s.advance = .next t) ∨
    (s.turn = .bus ∧ t = busStep s.advance) ∨
    (s.turn = .driver ∧ t = driverStep s.advance) := by
  unfold step agentStep at h
  cases ha : s.turn <;> rw [ha] at h
  · exact .inl ⟨rfl, h⟩
  · exact .inr (.inl ⟨rfl, by simpa using h.symm⟩)
  · exact .inr (.inr ⟨rfl, by simpa using h.symm⟩)

/-- The Engine's step is the step of its FSM state. -/
theorem engineStep_eq (s : State) :
    engineStep s =
      match s.st with
      | .idle => .next (idleStep s)
      | .decode => decodeStep s
      | .countHigh => .next (countHighStep s)
      | .countLow => countLowStep s
      | .writeFirst => .next (writeFirstStep s)
      | .write => .next (writeStep s)
      | .report => .next (reportStep s)
      | .readFirst => .next (readFirstStep s)
      | .read => .next (readStep s) := by
  unfold engineStep
  cases h : s.st <;> simp [exec, execWrite, execRead, h]

end Machine
end Sys2Proof
end

