-- ==== Sys2Proof/Laws/Moves.lean ====
section
/-! SUPPORT. What one step can do, said once for each agent, as one named case for each thing it can do. -/

namespace Sys2Proof
namespace Machine

/-! ## The Engine -/

/-- Everything an Engine step can do (R106). -/
inductive EngineMove (s : State) : State → Prop where
  | hold : EngineMove s s
  | fetch (b : Byte) (rest : List Byte) (hs : s.st = .idle) (hb : s.bbusy = false) (ho : s.outq = b :: rest) :
    EngineMove s { s with op := b, st := .decode, outq := rest, consumed := s.consumed + 1 }
  | start (hs : s.st = .decode) : EngineMove s { s with bbusy := true, bpend := some .start, st := .idle }
  | stop (hs : s.st = .decode) : EngineMove s { s with bbusy := true, bpend := some .stop, st := .idle }
  | operand (hs : s.st = .decode) : EngineMove s { s with st := .countHigh }
  | nothing (hs : s.st = .decode) : EngineMove s { s with st := .idle }
  | toWrite (hs : s.st = .decode) (hc : s.count ≠ 0) : EngineMove s { s with st := .writeFirst }
  | toRead (hs : s.st = .decode) (hc : s.count ≠ 0) : EngineMove s { s with st := .readFirst }
  | countHigh (b : Byte) (rest : List Byte) (hs : s.st = .countHigh) (ho : s.outq = b :: rest) :
    EngineMove s
      { s with outq := rest, consumed := s.consumed + 1, count := withCountHi s.count b, st := .countLow }
  | countLow (b : Byte) (rest : List Byte) (hs : s.st = .countLow) (ho : s.outq = b :: rest) :
    EngineMove s
      { s with outq := rest, consumed := s.consumed + 1,
               count := BitVec.ofNat 16 (countOperand (countHi s.count) b), st := .idle }
  | firstByte (b : Byte) (rest : List Byte) (hs : s.st = .writeFirst) (ho : s.outq = b :: rest) :
    EngineMove s
      { s with outq := rest, consumed := s.consumed + 1, bbusy := true, bpend := some (.write b), st := .write }
  | nak (hs : s.st = .write) (hb : s.bbusy = false) (ha : s.back = false) : EngineMove s { s with st := .report }
  | lastAck (hs : s.st = .write) (hb : s.bbusy = false) (ha : s.back = true) (hc : s.count = 1) :
    EngineMove s { s with count := s.count - 1, st := .report }
  | nextByte (b : Byte) (rest : List Byte) (hs : s.st = .write) (hb : s.bbusy = false) (ha : s.back = true)
      (hc : s.count ≠ 1) (ho : s.outq = b :: rest) :
    EngineMove s
      { s with outq := rest, consumed := s.consumed + 1, count := s.count - 1, bbusy := true,
               bpend := some (.write b) }
  | starved (hs : s.st = .write) (hb : s.bbusy = false) (ha : s.back = true) (hc : s.count ≠ 1) (ho : s.outq = [])
      (hm : s.par.starvedWrite = .redecrement) : EngineMove s { s with count := s.count - 1 }
  | report (hs : s.st = .report) (hr : s.inReady = true) :
    EngineMove s { s with inq := s.inq ++ [countLo s.count], st := .idle }
  | firstRead (hs : s.st = .readFirst) :
    EngineMove s
      { s with count := s.count - 1, bbusy := true, bpend := some (.read (!decide (s.count = 1))), st := .read }
  | lastRead (hs : s.st = .read) (hb : s.bbusy = false) (hr : s.inReady = true) (hc : s.count = 0) :
    EngineMove s { s with inq := s.inq ++ [s.bbyte], st := .idle }
  | nextRead (hs : s.st = .read) (hb : s.bbusy = false) (hr : s.inReady = true) (hc : s.count ≠ 0) :
    EngineMove s
      { s with inq := s.inq ++ [s.bbyte], count := s.count - 1, bbusy := true,
               bpend := some (.read (!decide (s.count = 1))) }

/-- What DECODE does. -/
theorem decodeStep_move {s t : State} (hs : s.st = .decode) (h : decodeStep s = .next t) : EngineMove s t := by
  rw [decodeStep_eq] at h
  split_ifs at h
  · cases h; exact .start hs
  · cases h; exact .stop hs
  · cases h; exact .operand hs
  · simp only [execWrite, hs, writeDecode, countIsZero_eq, Host.Outcome.next.injEq] at h
    by_cases hc : s.count = 0
    · rw [← h]
      simpa [hc, State.goto] using EngineMove.nothing hs
    · rw [← h]
      rw [decide_eq_false hc]
      exact .toWrite hs hc
  · simp only [execRead, hs, readDecode, countIsZero_eq, Host.Outcome.next.injEq] at h
    by_cases hc : s.count = 0
    · rw [← h]
      simpa [hc, State.goto] using EngineMove.nothing hs
    · rw [← h]
      rw [decide_eq_false hc]
      exact .toRead hs hc
  · cases h; exact .nothing hs

/-- What state WRITE does. -/
theorem writeStep_move {s : State} (hs : s.st = .write) : EngineMove s (writeStep s) := by
  obtain ⟨_, e⟩ | ⟨h1, h2, e⟩ | ⟨h1, h2, h3, e⟩ | ⟨h1, h2, h3, h⟩ := writeStep_cases s
  · rw [e]; exact .hold
  · exact e ▸ .nak hs h1 h2
  · exact e ▸ .lastAck hs h1 h2 h3
  · obtain ⟨b, rest, h4, e⟩ | ⟨_, _, e⟩ | ⟨h4, h5, e⟩ := h
    · exact e ▸ .nextByte b rest hs h1 h2 h3 h4
    · rw [e]; exact .hold
    · exact e ▸ .starved hs h1 h2 h3 h4 h5

/-- Every Engine step is one of the moves. -/
theorem engineStep_move {s t : State} (h : engineStep s = .next t) : EngineMove s t := by
  rw [engineStep_eq] at h
  cases hs : s.st <;> rw [hs] at h
  case decode => exact decodeStep_move hs h
  case countLow =>
    obtain ⟨_, e⟩ | ⟨b, rest, ho, e⟩ := countLowStep_cases s
    · cases e.symm.trans h; exact .hold
    · cases e.symm.trans h; exact .countLow b rest hs ho
  case idle =>
    cases h
    obtain e | ⟨hb, b, rest, ho, e⟩ := idleStep_cases s
    · rw [e]; exact .hold
    · exact e ▸ .fetch b rest hs hb ho
  case countHigh =>
    cases h
    obtain e | ⟨b, rest, ho, e⟩ := countHighStep_cases s
    · rw [e]; exact .hold
    · exact e ▸ .countHigh b rest hs ho
  case writeFirst =>
    cases h
    obtain ⟨_, e⟩ | ⟨b, rest, ho, e⟩ := writeFirstStep_cases s
    · rw [e]; exact .hold
    · exact e ▸ .firstByte b rest hs ho
  case write => cases h; exact writeStep_move hs
  case report =>
    cases h
    obtain ⟨_, e⟩ | ⟨hr, e⟩ := reportStep_cases s
    · rw [e]; exact .hold
    · exact e ▸ .report hs hr
  case readFirst => cases h; exact (readFirstStep_eq s).symm ▸ .firstRead hs
  case read =>
    cases h
    obtain ⟨_, e⟩ | ⟨h1, h2, h3, e⟩ | ⟨h1, h2, h3, e⟩ := readStep_cases s
    · rw [e]; exact .hold
    · exact e ▸ .lastRead hs h1 h2 h3
    · exact e ▸ .nextRead hs h1 h2 h3

/-! ## The Bus agent -/

/-- Everything a Bus agent's step can do (R29). -/
inductive BusMove (s : State) : State → Prop where
  | hold (hb : s.bbusy = false) : BusMove s s
  | empty (hb : s.bbusy = true) (hp : s.bpend = none) : BusMove s { s with bbusy := false, bpend := none }
  | start (hb : s.bbusy = true) (hp : s.bpend = some .start) :
    BusMove s { s with blog := s.blog ++ [.start], bbusy := false, bpend := none }
  | stop (hb : s.bbusy = true) (hp : s.bpend = some .stop) :
    BusMove s { s with blog := s.blog ++ [.stop], bbusy := false, bpend := none }
  | write (b : Byte) (hb : s.bbusy = true) (hp : s.bpend = some (.write b)) :
    BusMove s
      { s with back := s.drawAck b, blog := s.blog ++ [.write b (s.drawAck b)], acks := s.acks.tail,
               bbusy := false, bpend := none }
  | read (a : Bool) (hb : s.bbusy = true) (hp : s.bpend = some (.read a)) :
    BusMove s
      { s with bbyte := s.drawByte a, blog := s.blog ++ [.read a (s.drawByte a)], reads := s.reads.tail,
               bbusy := false, bpend := none }

/-- Every step of the Bus agent is one of the moves. -/
theorem busStep_move (s : State) : BusMove s (busStep s) := by
  obtain ⟨hb, e⟩ | ⟨hb, hp, e⟩ | ⟨o, hb, hp, e⟩ := busStep_cases s
  · rw [e]; exact .hold hb
  · rw [e]; exact .empty hb hp
  · rw [e]
    cases o with
    | start => exact .start hb hp
    | stop => exact .stop hb hp
    | write b => exact .write b hb hp
    | read a => exact .read a hb hp

/-! ## The Driver -/

/-- The call that a Driver step works on: the one in progress, or the next one of the host, admitted just now; and the host's
calls left over. -/
inductive Running (s : State) : Job → List Call → Prop where
  | going (j : Job) (hj : s.job = some j) : Running s j s.calls
  | starting (c : Call) (rest : List Call) (o : Op) (hj : s.job = none) (hc : s.calls = c :: rest)
      (ha : admitCall c = .ok o) : Running s (Job.init o) rest

/-- Everything a Driver step can do (R55, R180, R227). -/
inductive DriverMove (s : State) : State → Prop where
  | hold : DriverMove s s
  | refuse (c : Call) (rest : List Call) (r : RefuseReason) (hj : s.job = none) (hc : s.calls = c :: rest)
      (ha : admitCall c = .error r) :
    DriverMove s { s with calls := rest, refusal := s.refusal.or (some r) }
  | push (j : Job) (calls : List Call) (b : Byte) (hrun : Running s j calls)
      (hb : (j.txn s.par).bytes[j.pos]? = some b) (hr : s.outRoom = true) :
    DriverMove s { s with calls := calls, outq := s.outq ++ [b], job := some { j with pos := j.pos + 1 } }
  | pop (j : Job) (calls : List Call) (b : Byte) (rest : List Byte) (hrun : Running s j calls)
      (hp : (j.txn s.par).bytes.length ≤ j.pos) (hi : s.inq = b :: rest)
      (hm : j.got.length + 1 < (j.txn s.par).inbound) :
    DriverMove s { s with calls := calls, inq := rest, job := some { j with got := j.got ++ [b] } }
  | done (j : Job) (calls : List Call) (b : Byte) (rest : List Byte) (r : Result) (hrun : Running s j calls)
      (hp : (j.txn s.par).bytes.length ≤ j.pos) (hi : s.inq = b :: rest)
      (hm : (j.txn s.par).inbound ≤ j.got.length + 1) (hf : j.finish (j.got ++ [b]) = .done r) :
    DriverMove s { s with calls := calls, inq := rest, job := none, results := s.results ++ [r] }
  | again (j j' : Job) (calls : List Call) (b : Byte) (rest : List Byte) (hrun : Running s j calls)
      (hp : (j.txn s.par).bytes.length ≤ j.pos) (hi : s.inq = b :: rest)
      (hm : (j.txn s.par).inbound ≤ j.got.length + 1) (hf : j.finish (j.got ++ [b]) = .again j') :
    DriverMove s { s with calls := calls, inq := rest, job := some j' }

/-- What a call does next, wherever the host's calls stand. -/
theorem jobMove_move {s t : State} {j : Job} {calls : List Call} (hrun : Running s j calls)
    (h : jobMove { s with calls := calls } j = some t) : DriverMove s t := by
  obtain e | ⟨b, hb, hr, e⟩ | ⟨b, rest, hp, hi, e⟩ := jobMove_cases { s with calls := calls } j
  · rw [e] at h; cases h
  · rw [e] at h; cases h; exact .push j calls b hrun hb hr
  · rw [e] at h
    cases h
    obtain ⟨hm, e⟩ | ⟨hm, ⟨r, hf, e⟩ | ⟨j', hf, e⟩⟩ :=
      afterPop_cases { s with calls := calls, inq := rest } j (j.got ++ [b])
    · rw [e]; exact .pop j calls b rest hrun hp hi (by simpa using hm)
    · rw [e]; exact .done j calls b rest r hrun hp hi (by simpa using hm) hf
    · rw [e]; exact .again j j' calls b rest hrun hp hi (by simpa using hm) hf

/-- Every step of the Driver is one of the moves. -/
theorem driverStep_move (s : State) : DriverMove s (driverStep s) := by
  obtain e | ⟨j, t, hj, hm, e⟩ | ⟨c, rest, r, hj, hc, ha, e⟩ | ⟨c, rest, o, t, hj, hc, ha, hm, e⟩ := driverStep_cases s
  · rw [e]; exact .hold
  · rw [e]; exact jobMove_move (.going j hj) hm
  · rw [e]; exact .refuse c rest r hj hc ha
  · rw [e]; exact jobMove_move (.starting c rest o hj hc ha) hm

/-! ## The system -/

/-- Every step is a move of the agent whose turn it is, once the turn is used up. -/
theorem step_move {s t : State} (h : step s = .next t) :
    (s.turn = .engine ∧ EngineMove s.advance t) ∨ (s.turn = .bus ∧ BusMove s.advance t) ∨
    (s.turn = .driver ∧ DriverMove s.advance t) := by
  obtain ⟨ha, h⟩ | ⟨ha, rfl⟩ | ⟨ha, rfl⟩ := step_cases h
  · exact .inl ⟨ha, engineStep_move h⟩
  · exact .inr (.inl ⟨ha, busStep_move _⟩)
  · exact .inr (.inr ⟨ha, driverStep_move _⟩)

end Machine
end Sys2Proof
end

