-- ==== Sys2Proof/Laws/Run.lean ====
section
/-! SUPPORT. Runs with the turns fixed, one turn at a time. -/

namespace Sys2Proof
namespace Machine

/-- The state the agent of a fixed turn sees: that turn is used up. -/
def State.seen (s : State) (rest : List Agent) : State :=
  { s with turns := rest, tick := s.tick + 1 }

theorem step_withTurns (a : Agent) (l : List Agent) (s : State) :
    step (s.withTurns (a :: l)) = agentStep a (s.seen l) := rfl

@[simp] theorem runTurns_nil (s : State) : runTurns [] s = .next (s.withTurns []) := rfl

/-- One turn: the agent's step, then the run of the other turns. -/
theorem runTurns_cons {a : Agent} {l : List Agent} {s t : State} (h : agentStep a (s.seen l) = .next t)
    (ht : t.turns = l) : runTurns (a :: l) s = runTurns l t := by
  have hw : t.withTurns l = t := by subst ht; rfl
  have hs : core.step (s.withTurns (a :: l)) = .next t := h
  simp only [runTurns, List.length_cons, Host.Core.run, hs, hw]
  rfl

end Machine
end Sys2Proof
end

