-- ==== Sys2Proof/Laws/Confluence.lean ====
section
/-! SUPPORT. The order of turns does not matter: two agents that can both move do not disturb each other, so that where one run
comes to a halted state every run with enough rounds of turns comes to it (`endsIn_of_path`). -/

namespace Sys2Proof
namespace Machine

/-! ## The Engine beside another Driver -/

/-- `s` with the Driver, the inputs and the trace of `u`, `x` added to the outbound channel and the first `k` bytes of the
inbound channel gone. -/
def State.beside (s u : State) (x : List Byte) (k : Nat) : State :=
  { s with calls := u.calls, job := u.job, results := u.results, refusal := u.refusal, turns := u.turns, tick := u.tick,
           acks := u.acks, reads := u.reads, blog := u.blog, outq := s.outq ++ x, inq := s.inq.drop k }

theorem outq_of_avail {s : State} (h : s.outAvail = true) : ∃ b rest, s.outq = b :: rest :=
  List.exists_cons_of_ne_nil (outAvail_eq_true.1 h)

theorem inReady_beside {s u : State} {x : List Byte} {k : Nat} (h : s.inReady = true) :
    (s.beside u x k).inReady = true := by
  simp only [State.inReady, State.beside, hasRoom_iff, List.length_drop] at *
  intro d hd
  have := h d hd
  omega

/-- An Engine that can move does the same there. -/
theorem engineStep_beside {s t : State} (u : State) (x : List Byte) (k : Nat) (hk : k ≤ s.inq.length)
    (he : s.engineEnabled = true) (hn : s.par.starvedWrite = .hold ∨ s.starved = false)
    (h : engineStep s = .next t) : engineStep (s.beside u x k) = .next (t.beside u x k) := by
  rw [engineStep_eq] at h ⊢
  have hst : (s.beside u x k).st = s.st := rfl
  rw [hst]
  cases hs : s.st <;> rw [hs] at h <;> simp only at h ⊢ <;> (try simp only [State.engineEnabled, hs] at he)
  case decode =>
    rw [decodeStep_eq] at h ⊢
    have e : (s.beside u x k).op = s.op := rfl
    rw [e]
    split_ifs at h ⊢ <;> cases h <;>
      (try simp only [execStart, execStop, setCountDecode, execWrite, execRead, hst, hs]) <;> rfl
  case idle =>
    obtain ⟨b, rest, ho⟩ := outq_of_avail (by simp only [Bool.and_eq_true] at he; exact he.2)
    have hb : s.bbusy = false := by simp at he; exact he.1
    have ho' : (s.beside u x k).outq = b :: (rest ++ x) := by simp [State.beside, ho]
    have hb' : (s.beside u x k).bbusy = false := hb
    cases h
    simp [idleStep, hb, hb', popOut_of_cons ho, popOut_of_cons ho']
    rfl
  case countHigh =>
    obtain ⟨b, rest, ho⟩ := outq_of_avail he
    have ho' : (s.beside u x k).outq = b :: (rest ++ x) := by simp [State.beside, ho]
    cases h
    simp [countHighStep, popOut_of_cons ho, popOut_of_cons ho']
    rfl
  case countLow =>
    obtain ⟨b, rest, ho⟩ := outq_of_avail he
    have ho' : (s.beside u x k).outq = b :: (rest ++ x) := by simp [State.beside, ho]
    simp only [countLowStep, popOut_of_cons ho, popOut_of_cons ho'] at h ⊢
    cases h
    rfl
  case writeFirst =>
    obtain ⟨b, rest, ho⟩ := outq_of_avail he
    have ho' : (s.beside u x k).outq = b :: (rest ++ x) := by simp [State.beside, ho]
    cases h
    simp [writeFirstStep, popOut_of_cons ho, popOut_of_cons ho']
    rfl
  case write =>
    have hb : s.bbusy = false := by simp at he; exact he.1
    have hb' : (s.beside u x k).bbusy = false := hb
    have ha' : (s.beside u x k).back = s.back := rfl
    have hc' : (s.beside u x k).countIsOne = s.countIsOne := rfl
    cases h
    by_cases hr : (!s.back || s.countIsOne) = true
    · simp only [writeStep, hb, hb', ha', hc', hr]; rfl
    · obtain ⟨b, rest, ho⟩ : ∃ b rest, s.outq = b :: rest := by
        cases hq : s.outq with
        | nil =>
          simp at hr
          have hs1 : s.starved = true := by simp [State.starved, hs, hb, hr, hq]
          rcases hn with hn | hn
          · simp [State.outAvail, hq, hn, hr, hb] at he
          · simp [hs1] at hn
        | cons b rest => exact ⟨b, rest, rfl⟩
      have ho' : (s.beside u x k).outq = b :: (rest ++ x) := by simp [State.beside, ho]
      simp only [writeStep, hb, hb', ha', hc', hr, popOut_of_cons ho, popOut_of_cons ho']
      rfl
  case report =>
    cases h
    simp only [reportStep, he, inReady_beside he]
    simp [State.beside, State.pushIn, State.goto, List.drop_append_of_le_length hk]
  case readFirst => cases h; rfl
  case read =>
    simp only [Bool.and_eq_true, Bool.not_eq_true'] at he
    cases h
    have hb' : (s.beside u x k).bbusy = false := he.1
    have hc' : (s.beside u x k).countIsZero = s.countIsZero := rfl
    by_cases hz : s.countIsZero = true <;>
      simp only [readStep, he.1, he.2, hb', hc', inReady_beside he.2, hz] <;>
      simp [State.beside, State.pushIn, State.goto, requestByte, State.strobe, State.countIsOne,
        List.drop_append_of_le_length hk]

/-! ## The Driver beside another Engine or bus -/

theorem outRoom_of_le {s t : State} (hp : t.par = s.par) (ho : t.outq.length ≤ s.outq.length) (h : s.outRoom = true) :
    t.outRoom = true := by
  simp only [State.outRoom, hp, hasRoom_iff] at *
  intro d hd
  have := h d hd
  omega

theorem jobMove_beside {s t v : State} {j : Job} {c : List Call} (hr : t.results = s.results) (hf : t.refusal = s.refusal)
    (hp : t.par = s.par) (hb : sameDraws s t) (hl : t.blog = s.blog) (hs : sameSetting s t)
    (ho : t.outq.length ≤ s.outq.length) (y : List Byte) (hi : t.inq = s.inq ++ y)
    (hv : jobMove { s with calls := c } j = some v) :
    ∃ x k, k ≤ s.inq.length ∧ v = s.beside v x k ∧ jobMove { t with calls := c } j = some (t.beside v x k) := by
  obtain ⟨ha, hre⟩ := hb
  obtain ⟨-, hT, hK⟩ := hs
  have hm := hv
  obtain e | ⟨b, h1, h2, e⟩ | ⟨b, rest, h1, h2, e⟩ := jobMove_cases { s with calls := c } j
  · rw [e] at hv; cases hv
  · rw [e] at hv
    cases hv
    refine ⟨[b], 0, by simp, by simp [State.beside], ?_⟩
    have h2' : State.outRoom { t with calls := c } = true := outRoom_of_le (s := { s with calls := c }) hp ho h2
    have h1' : (j.txn t.par).bytes[j.pos]? = some b := by rw [hp]; exact h1
    simp only [jobMove, h1', h2']
    simp [State.beside, State.pushOut, ha, hre, hr, hf, hl, hT, hK]
  · rw [e] at hv
    simp only at h2
    have h3 : (j.txn t.par).bytes[j.pos]? = none := by rw [hp]; exact List.getElem?_eq_none_iff.2 h1
    have h4 : t.inq = b :: (rest ++ y) := by rw [hi, h2]; rfl
    refine ⟨[], 1, by simp [h2], ?_⟩
    have e' : jobMove { t with calls := c } j = some (afterPop { t with calls := c, inq := rest ++ y } j (j.got ++ [b])) := by
      simp only [jobMove, h3, h4]
    rw [e']
    obtain ⟨s1, s2, s3, s4, s5, s6, s7, s8, s9, s10, s11, s12, s13, s14, s15, s16, s17, s18, s19, s20⟩ := s
    obtain ⟨t1, t2, t3, t4, t5, t6, t7, t8, t9, t10, t11, t12, t13, t14, t15, t16, t17, t18, t19, t20⟩ := t
    simp only at *
    subst hr hf hp hl ha hre hT hK h2 h4
    cases hv
    unfold afterPop
    simp only
    split_ifs
    · simp [State.beside]
    · cases j.finish (j.got ++ [b]) <;> simp [State.beside]

/-- An enabled Driver does the same beside another Engine: its own state changes in the same way, and it pushes or pops the same
byte. -/
theorem driverMove_beside {s t v : State} (hd : sameDriver s t)
    (hp : t.par = s.par) (hb : sameDraws s t) (hl : t.blog = s.blog) (hs : sameSetting s t)
    (ho : t.outq.length ≤ s.outq.length) (y : List Byte) (hi : t.inq = s.inq ++ y) (hv : driverMove s = some v) :
    ∃ x k, k ≤ s.inq.length ∧ v = s.beside v x k ∧ driverMove t = some (t.beside v x k) := by
  obtain ⟨hc, hj, hr, hf⟩ := hd
  unfold driverMove at hv ⊢
  rw [hj, hc]
  cases hjs : s.job with
  | some j =>
    rw [hjs] at hv
    simp only at hv ⊢
    obtain ⟨x, k, h1, h2, h3⟩ := jobMove_beside (c := s.calls) hr hf hp hb hl hs ho y hi hv
    refine ⟨x, k, h1, h2, ?_⟩
    rw [← hc] at h3
    exact h3
  | none =>
    rw [hjs] at hv
    cases hcs : s.calls with
    | nil => rw [hcs] at hv; cases hv
    | cons c rest =>
      rw [hcs] at hv
      simp only at hv ⊢
      cases ha : admitCall c with
      | error r =>
        rw [ha] at hv
        cases hv
        refine ⟨[], 0, by simp, by simp [State.beside], ?_⟩
        obtain ⟨ha, hre⟩ := hb
        obtain ⟨-, hT, hK⟩ := hs
        simp [State.beside, ha, hre, hr, hf, hl, hT, hK]
      | ok o =>
        rw [ha] at hv
        exact jobMove_beside hr hf hp hb hl hs ho y hi hv

theorem driverMove_eq {s v : State} (h : driverMove s = some v) : driverStep s = v := by simp [driverStep, h]

/-- `s` with the bus, the inputs and the schedule of `u`. -/
def State.overBus (s u : State) : State :=
  { s with bbusy := u.bbusy, bpend := u.bpend, back := u.back, bbyte := u.bbyte, blog := u.blog, acks := u.acks,
           reads := u.reads, turns := u.turns, tick := u.tick }

theorem afterPop_overBus (s u : State) (j : Job) (got : List Byte) :
    afterPop (s.overBus u) j got = (afterPop s j got).overBus u := by
  have e : (s.overBus u).par = s.par := rfl
  unfold afterPop
  rw [e]
  split_ifs
  · rfl
  · cases j.finish got <;> rfl

theorem jobMove_overBus (s u : State) (j : Job) : jobMove (s.overBus u) j = (jobMove s j).map (·.overBus u) := by
  have e1 : (s.overBus u).par = s.par := rfl
  have e2 : (s.overBus u).inq = s.inq := rfl
  have e3 : (s.overBus u).outRoom = s.outRoom := rfl
  unfold jobMove
  rw [e1, e2, e3]
  cases (j.txn s.par).bytes[j.pos]? with
  | some b => cases s.outRoom <;> rfl
  | none =>
    cases s.inq with
    | nil => rfl
    | cons b rest => exact congrArg some (afterPop_overBus { s with inq := rest } u j _)

/-- The Driver does the same over another bus and schedule. -/
theorem driverMove_overBus (s u : State) : driverMove (s.overBus u) = (driverMove s).map (·.overBus u) := by
  unfold driverMove
  have e1 : (s.overBus u).job = s.job := rfl
  have e2 : (s.overBus u).calls = s.calls := rfl
  rw [e1, e2]
  cases s.job with
  | some j => exact jobMove_overBus s u j
  | none =>
    cases s.calls with
    | nil => rfl
    | cons c rest =>
      simp only
      cases admitCall c with
      | error r => rfl
      | ok o => exact jobMove_overBus { s with calls := rest } u _

theorem busStep_overBus (s : State) : busStep s = s.overBus (busStep s) := by
  unfold busStep
  split_ifs
  · cases s.bpend with
    | none => rfl
    | some o => cases o <;> rfl
  · rfl

/-- The Bus agent does the same beside another Driver. -/
theorem busStep_other {s t : State} (h1 : sameFlight s t) (h2 : sameBusOutputs s t) (h3 : sameDraws s t)
    (h4 : sameSetting s t) : busStep t = t.overBus (busStep s) := by
  obtain ⟨a, b⟩ := h1
  obtain ⟨c, d, e⟩ := h2
  obtain ⟨f, g⟩ := h3
  obtain ⟨-, i, l⟩ := h4
  unfold busStep
  rw [a, b]
  split_ifs with hb
  · cases s.bpend with
    | none => simp [State.busDone, State.overBus, c, d, e, f, g, i, l]
    | some o =>
      cases o <;>
        simp [State.complete, State.busDone, State.overBus, State.drawAck, State.drawByte, c, d, e, f, g, i, l]
  · simp only [State.overBus, ← a, ← b, ← c, ← d, ← e, ← f, ← g, ← i, ← l]

/-! ## The step of one agent, and two agents' steps -/

/-- Every Engine step answers a next state. -/
theorem engineStep_next (s : State) : ∃ t, engineStep s = .next t := by
  unfold engineStep decodeStep countLowStep
  cases s.st <;> simp only [exec, execWrite, execRead] <;> try exact ⟨_, rfl⟩
  · cases decode [s.op] with
    | instr i r => cases i <;> exact ⟨_, rfl⟩
    | ignored b r => exact ⟨_, rfl⟩
    | incomplete => exact ⟨_, rfl⟩
  · cases s.popOut <;> exact ⟨_, rfl⟩

/-- The state after the step of one agent. -/
def State.after (a : Agent) (s : State) : State :=
  match agentStep a s with
  | .next t => t
  | .fault _ => s
  | .refused _ => s

theorem agentStep_after (a : Agent) (s : State) : agentStep a s = .next (s.after a) := by
  cases a
  · obtain ⟨t, h⟩ := engineStep_next s
    simp [State.after, agentStep, h]
  · rfl
  · rfl

theorem engineStep_after (s : State) : engineStep s = .next (s.after .engine) := agentStep_after .engine s

theorem after_engine {s t : State} (h : engineStep s = .next t) : s.after .engine = t := by
  simpa [engineStep_after] using h

@[simp] theorem after_bus (s : State) : s.after .bus = busStep s := rfl
@[simp] theorem after_driver (s : State) : s.after .driver = driverStep s := rfl

/-- An Engine whose guard is false holds (R104). -/
theorem engineStep_of_disabled {s : State} (h : s.engineEnabled = false) : engineStep s = .next s := by
  rw [engineStep_eq]
  cases hs : s.st <;> simp only [State.engineEnabled, hs] at h ⊢
  case decode => cases h
  case readFirst => cases h
  case idle =>
    obtain e | ⟨hb, b, rest, ho, -⟩ := idleStep_cases s
    · rw [e]
    · simp [hb, ho, State.outAvail] at h
  case countHigh =>
    obtain e | ⟨b, rest, ho, -⟩ := countHighStep_cases s
    · rw [e]
    · simp [ho, State.outAvail] at h
  case countLow =>
    obtain ⟨-, e⟩ | ⟨b, rest, ho, -⟩ := countLowStep_cases s
    · exact e
    · simp [ho, State.outAvail] at h
  case writeFirst =>
    obtain ⟨-, e⟩ | ⟨b, rest, ho, -⟩ := writeFirstStep_cases s
    · rw [e]
    · simp [ho, State.outAvail] at h
  case write =>
    obtain ⟨-, e⟩ | ⟨h1, h2, e⟩ | ⟨h1, h2, h3, e⟩ | ⟨h1, h2, h3, ⟨b, rest, ho, -⟩ | ⟨-, -, e⟩ | ⟨-, h5, -⟩⟩ :=
      writeStep_cases s
    · rw [e]
    · simp [h1, h2] at h
    · simp [h1, h2, h3] at h
    · simp [h1, h2, ho, State.outAvail] at h
    · rw [e]
    · simp [h1, h2, h5] at h
  case report =>
    obtain ⟨-, e⟩ | ⟨h1, -⟩ := reportStep_cases s
    · rw [e]
    · simp [h1] at h
  case read =>
    obtain ⟨-, e⟩ | ⟨h1, h2, -⟩ | ⟨h1, h2, -⟩ := readStep_cases s
    · rw [e]
    · simp [h1, h2] at h
    · simp [h1, h2] at h

theorem after_of_disabled {a : Agent} {s : State} (h : s.enabled a = false) : s.after a = s := by
  cases a
  · exact after_engine (engineStep_of_disabled h)
  · have h : s.bbusy = false := h
    simp [busStep, h]
  · have h : (driverMove s).isSome = false := h
    have : driverMove s = none := by simpa using h
    simp [driverStep, this]

/-- What an Engine step leaves alone, and what it may do to the channels. -/
theorem engineStep_frame {s t : State} (h : engineStep s = .next t) :
    sameDriver s t ∧ t.par = s.par ∧ sameDraws s t ∧ t.blog = s.blog ∧ sameSetting s t ∧ t.outq.length ≤ s.outq.length ∧
      ∃ y, t.inq = s.inq ++ y := by
  cases engineStep_move h <;>
    (refine ⟨⟨rfl, rfl, rfl, rfl⟩, rfl, ⟨rfl, rfl⟩, rfl, ⟨rfl, rfl, rfl⟩, ?_, ?_⟩
     · simp_all
     · first | exact ⟨[], (List.append_nil _).symm⟩ | exact ⟨_, rfl⟩)

/-- The states in which no two agents race: the Bus Primitive's handshake is in order, and state WRITE waits where it has no
byte. -/
def State.ordered (s : State) : Prop :=
  s.busInv ∧ s.flightInv ∧ (s.par.starvedWrite = .hold ∨ s.starved = false)

/-- While the bus is busy the Engine cannot move. -/
theorem engine_waits_for_bus {s : State} (h : s.ordered) (hb : s.bbusy = true) : s.engineEnabled = false := by
  obtain ⟨h1, h2, -⟩ := h
  obtain ⟨o, ho⟩ : ∃ o, s.bpend = some o := by
    rw [State.busInv, hb] at h1
    exact Option.isSome_iff_exists.1 h1.symm
  have := h2 o ho
  cases o <;> simp only at this <;> simp [State.engineEnabled, this, hb]

/-- The Engine can move beside another Driver where it can move at all. -/
theorem engineEnabled_beside {s u : State} {x : List Byte} {k : Nat} (h : s.engineEnabled = true) :
    (s.beside u x k).engineEnabled = true := by
  have hav : s.outAvail = true → (s.beside u x k).outAvail = true := by
    simp only [outAvail_eq_true, State.beside]
    intro h
    simp [h]
  have hir : s.inReady = true → (s.beside u x k).inReady = true := inReady_beside
  have h1 : (s.beside u x k).st = s.st := rfl
  have h2 : (s.beside u x k).bbusy = s.bbusy := rfl
  have h3 : (s.beside u x k).back = s.back := rfl
  have h4 : (s.beside u x k).countIsOne = s.countIsOne := rfl
  have h5 : (s.beside u x k).par = s.par := rfl
  revert h
  unfold State.engineEnabled
  rw [h1, h2, h3, h4, h5]
  cases s.st <;> simp only [Bool.and_eq_true, Bool.or_eq_true] <;> tauto

/-- Engine and Driver do not disturb each other. -/
theorem engine_driver_commute {s : State} (ho : s.ordered) (he : s.enabled .engine = true)
    (hd : s.enabled .driver = true) :
    (s.after .engine).enabled .driver = true ∧ (s.after .driver).enabled .engine = true ∧
      (s.after .engine).after .driver = (s.after .driver).after .engine := by
  obtain ⟨v, hv⟩ := Option.isSome_iff_exists.1 hd
  obtain ⟨f1, f2, f3, f4, f5, f6, y, f7⟩ := engineStep_frame (engineStep_after s)
  obtain ⟨x, k, hk, hvs, hvt⟩ := driverMove_beside f1 f2 f3 f4 f5 f6 y f7 hv
  have e1 : s.after .driver = v := driverMove_eq hv
  have e2 : (s.after .engine).after .driver = (s.after .engine).beside v x k := driverMove_eq hvt
  have e3 := engineStep_beside v x k hk he ho.2.2 (engineStep_after s)
  refine ⟨by simp [State.enabled, hvt], ?_, ?_⟩
  · rw [e1, hvs]
    exact engineEnabled_beside he
  · rw [e2, e1]
    conv_rhs => rw [hvs]
    exact (after_engine e3).symm

/-- The Driver leaves the bus and the schedule as they are. -/
theorem driverStep_frame (s : State) :
    sameFlight s (driverStep s) ∧ sameBusOutputs s (driverStep s) ∧ sameDraws s (driverStep s) ∧
      sameSetting s (driverStep s) := by
  have hm := driverStep_move s
  generalize driverStep s = v at hm
  cases hm <;> exact ⟨⟨rfl, rfl⟩, ⟨rfl, rfl, rfl⟩, ⟨rfl, rfl⟩, rfl, rfl, rfl⟩

/-- Bus agent and Driver do not disturb each other. -/
theorem bus_driver_commute {s : State} (hb : s.enabled .bus = true) (hd : s.enabled .driver = true) :
    (s.after .bus).enabled .driver = true ∧ (s.after .driver).enabled .bus = true ∧
      (s.after .bus).after .driver = (s.after .driver).after .bus := by
  obtain ⟨v, hv⟩ := Option.isSome_iff_exists.1 hd
  have e1 : driverStep s = v := driverMove_eq hv
  have e2 : driverMove (busStep s) = some (v.overBus (busStep s)) := by
    conv_lhs => rw [busStep_overBus s]
    rw [driverMove_overBus, hv]
    rfl
  obtain ⟨g1, g2, g3, g4⟩ := driverStep_frame s
  rw [e1] at g1 g2 g3 g4
  refine ⟨by simp [State.enabled, e2], ?_, ?_⟩
  · show (driverStep s).bbusy = true
    rw [e1, g1.1]
    exact hb
  · show driverStep (busStep s) = busStep (driverStep s)
    rw [driverMove_eq e2, e1, busStep_other g1 g2 g3 g4]

/-- Two agents that can both move do not disturb each other: after the one the other can still move, and both orders lead to the
same state. -/
theorem agents_commute {s : State} {a b : Agent} (ho : s.ordered) (hab : a ≠ b) (ha : s.enabled a = true)
    (hb : s.enabled b = true) : (s.after a).enabled b = true ∧ (s.after a).after b = (s.after b).after a := by
  have eb : s.enabled .engine = true → s.enabled .bus = true → False := fun h1 h2 =>
    Bool.false_ne_true ((engine_waits_for_bus ho h2).symm.trans h1)
  cases a <;> cases b
  · exact absurd rfl hab
  · exact (eb ha hb).elim
  · exact ⟨(engine_driver_commute ho ha hb).1, (engine_driver_commute ho ha hb).2.2⟩
  · exact (eb hb ha).elim
  · exact absurd rfl hab
  · exact ⟨(bus_driver_commute ha hb).1, (bus_driver_commute ha hb).2.2⟩
  · exact ⟨(engine_driver_commute ho hb ha).2.1, (engine_driver_commute ho hb ha).2.2.symm⟩
  · exact ⟨(bus_driver_commute hb ha).2.1, (bus_driver_commute hb ha).2.2.symm⟩
  · exact absurd rfl hab

/-! ## Ways to a halted state -/

/-- `n` steps of agents that can move lead from one state to another. -/
inductive Path : Nat → State → State → Prop where
  | nil (s : State) : Path 0 s s
  | cons {n : Nat} {s t : State} (a : Agent) (ha : s.enabled a = true) (h : Path n (s.after a) t) : Path (n + 1) s t

theorem Path.trans {m n : Nat} {s t u : State} (h : Path m s t) (k : Path n t u) : Path (m + n) s u := by
  induction h with
  | nil => simpa using k
  | cons a ha _ ih =>
    have := Path.cons a ha (ih k)
    rwa [Nat.add_right_comm] at this

theorem enabled_of_halted {s : State} (h : s.halted = true) (a : Agent) : s.enabled a = false := by
  simp only [State.halted, Bool.and_eq_true, Bool.not_eq_true'] at h
  cases a <;> simp [h]

/-- An invariant under which no two agents race. -/
structure Orderly (I : State → Prop) : Prop where
  ordered : ∀ {s}, I s → s.ordered
  step : ∀ {s} (a : Agent), I s → I (s.after a)

variable {I : State → Prop}

/-- Whichever agent moves first, the rest of the way to a halted state is one step shorter. -/
theorem path_after (hI : Orderly I) {n : Nat} {s t : State} {b : Agent} (h : Path n s t) (ht : t.halted = true)
    (hs : I s) (hb : s.enabled b = true) : ∃ m, n = m + 1 ∧ Path m (s.after b) t := by
  induction h with
  | nil s => rw [enabled_of_halted ht b] at hb; cases hb
  | @cons n s t a ha h ih =>
    by_cases hab : a = b
    · exact ⟨n, rfl, hab ▸ h⟩
    · obtain ⟨h1, h2⟩ := agents_commute (hI.ordered hs) hab ha hb
      obtain ⟨m, rfl, hm⟩ := ih ht (hI.step a hs) h1
      have h3 := (agents_commute (hI.ordered hs) (Ne.symm hab) hb ha).1
      exact ⟨m + 1, rfl, .cons a h3 (h2 ▸ hm)⟩

/-- The state after the turns of the agents listed. -/
def State.afterAll (s : State) (l : List Agent) : State := l.foldl (fun s a => s.after a) s

theorem path_after_turn (hI : Orderly I) {n : Nat} {s t : State} (a : Agent) (h : Path n s t) (ht : t.halted = true)
    (hs : I s) : ∃ m, Path m (s.after a) t ∧ (m < n ∨ m = n ∧ s.after a = s) := by
  cases ha : s.enabled a with
  | true =>
    obtain ⟨m, rfl, hm⟩ := path_after hI h ht hs ha
    exact ⟨m, hm, .inl (Nat.lt_succ_self m)⟩
  | false =>
    rw [after_of_disabled ha]
    exact ⟨n, h, .inr ⟨rfl, rfl⟩⟩

theorem path_after_turns (hI : Orderly I) {t : State} (ht : t.halted = true) (l : List Agent) {n : Nat} {s : State}
    (h : Path n s t) (hs : I s) : I (s.afterAll l) ∧ ∃ m, Path m (s.afterAll l) t ∧ (m < n ∨ m = n ∧ s.afterAll l = s) := by
  induction l generalizing s n with
  | nil => exact ⟨hs, n, h, .inr ⟨rfl, rfl⟩⟩
  | cons a l ih =>
    obtain ⟨m, hm, hlt⟩ := path_after_turn hI a h ht hs
    obtain ⟨hi, k, hk, hlt'⟩ := ih hm (hI.step a hs)
    refine ⟨hi, k, hk, ?_⟩
    rcases hlt with hlt | ⟨rfl, e⟩
    · rcases hlt' with hlt' | ⟨rfl, -⟩ <;> exact .inl (by omega)
    · rcases hlt' with hlt' | ⟨rfl, e'⟩
      · exact .inl hlt'
      · exact .inr ⟨rfl, by rw [← e]; rw [e] at e'; simpa [State.afterAll, e] using e'⟩

/-- A round of turns that has one of every agent comes closer to the halted state, or is there. -/
theorem path_after_round (hI : Orderly I) {n : Nat} {s t : State} {r : List Agent} (hr : fairRound r)
    (h : Path (n + 1) s t) (ht : t.halted = true) (hs : I s) : I (s.afterAll r) ∧ ∃ m ≤ n, Path m (s.afterAll r) t := by
  obtain ⟨a, ha⟩ : ∃ a, s.enabled a = true := by cases h with | cons a ha _ => exact ⟨a, ha⟩
  have hmem : a ∈ r := by cases a <;> [exact hr.1; exact hr.2.1; exact hr.2.2]
  obtain ⟨p, q, rfl⟩ := List.append_of_mem hmem
  have e : s.afterAll (p ++ a :: q) = ((s.afterAll p).after a).afterAll q := by simp [State.afterAll]
  obtain ⟨hi, m, hm, hlt⟩ := path_after_turns hI ht p h hs
  obtain ⟨m2, hm2, hlt2⟩ : ∃ m2, Path m2 ((s.afterAll p).after a) t ∧ m2 < n + 1 := by
    rcases hlt with hlt | ⟨rfl, es⟩
    · obtain ⟨m2, hm2, h | ⟨rfl, -⟩⟩ := path_after_turn hI a hm ht hi
      · exact ⟨m2, hm2, by omega⟩
      · exact ⟨m2, hm2, hlt⟩
    · obtain ⟨k, hk, hp⟩ := path_after hI h ht hs ha
      exact ⟨k, by rwa [es], by omega⟩
  obtain ⟨hi3, m3, hm3, hlt3⟩ := path_after_turns hI ht q hm2 (hI.step a hi)
  rw [e]
  exact ⟨hi3, m3, by rcases hlt3 with h | ⟨rfl, -⟩ <;> omega, hm3⟩

/-- Enough rounds lead to the halted state, whatever the order of turns in them. -/
theorem afterAll_rounds (hI : Orderly I) {n : Nat} {s t : State} (h : Path n s t) (ht : t.halted = true) (hs : I s)
    (rounds : List (List Agent)) (hn : n ≤ rounds.length) (hr : ∀ r ∈ rounds, fairRound r) :
    s.afterAll rounds.flatten = t := by
  induction rounds generalizing s n with
  | nil =>
    obtain rfl : n = 0 := by simpa using hn
    cases h; rfl
  | cons r rounds ih =>
    have e : s.afterAll (r :: rounds).flatten = (s.afterAll r).afterAll rounds.flatten := by simp [State.afterAll]
    rw [e]
    have hr' : ∀ r ∈ rounds, fairRound r := fun x hx => hr x (List.mem_cons_of_mem _ hx)
    cases n with
    | zero =>
      have hst : s = t := by cases h; rfl
      obtain ⟨hi, m, hm, h0 | ⟨rfl, -⟩⟩ := path_after_turns hI ht r h hs
      · omega
      · exact ih hm hi (Nat.zero_le _) hr'
    | succ n =>
      obtain ⟨hi, m, hmn, hm⟩ := path_after_round hI (hr r List.mem_cons_self) h ht hs
      exact ih hm hi (by simp at hn; omega) hr'

/-! ## Runs -/

/-- The starved step of state WRITE. -/
theorem engineStep_starved {s : State} (h1 : s.st = .write) (h2 : s.bbusy = false) (h3 : s.back = true)
    (h4 : s.count ≠ 1) (h5 : s.outq = []) (hm : s.par.starvedWrite = .redecrement) :
    engineStep s = .next { s with count := s.count - 1 } := by
  rw [engineStep_eq]
  obtain ⟨h, -⟩ | ⟨-, h, -⟩ | ⟨-, -, h, -⟩ | ⟨-, -, -, ⟨b, rest, h, -⟩ | ⟨-, h, -⟩ | ⟨-, -, e⟩⟩ := writeStep_cases s <;>
    simp_all

/-- A state with another schedule takes the same step. -/
theorem after_scheduled (s : State) (a : Agent) (l : List Agent) (n : Nat) :
    State.after a { s with turns := l, tick := n } = { s.after a with turns := l, tick := n } := by
  cases a
  · apply after_engine
    cases he : s.engineEnabled with
    | false =>
      rw [after_engine (engineStep_of_disabled he)]
      exact engineStep_of_disabled he
    | true =>
      by_cases hn : s.par.starvedWrite = .hold ∨ s.starved = false
      · have h := engineStep_beside { s with turns := l, tick := n } [] 0 (Nat.zero_le _) he hn (engineStep_after s)
        obtain ⟨⟨f1, f2, f3, f4⟩, -, ⟨f5, f6⟩, f7, -⟩ := engineStep_frame (engineStep_after s)
        simp only [State.beside, List.append_nil, List.drop_zero, ← f1, ← f2, ← f3, ← f4, ← f5, ← f6, ← f7] at h
        rw [f1, f2, f3, f4, f5, f6, f7] at h
        exact h.trans (by rw [← f1, ← f2, ← f3, ← f4, ← f5, ← f6, ← f7])
      · simp only [not_or, Bool.not_eq_false] at hn
        have hm : s.par.starvedWrite = .redecrement := by
          cases hq : s.par.starvedWrite with
          | hold => exact absurd hq hn.1
          | redecrement => rfl
        simp only [State.starved, Bool.and_eq_true, beq_iff_eq, bne_iff_ne, Bool.not_eq_true', List.isEmpty_iff] at hn
        obtain ⟨-, ⟨⟨⟨h1, h2⟩, h3⟩, h4⟩, h5⟩ := hn
        rw [after_engine (engineStep_starved h1 h2 h3 h4 h5 hm)]
        exact engineStep_starved h1 h2 h3 h4 h5 hm
  · simp only [after_bus, busStep]
    split_ifs
    · cases s.bpend with
      | none => rfl
      | some o => cases o <;> rfl
    · rfl
  · have h := driverMove_overBus s { s with turns := l, tick := n }
    have e : s.overBus { s with turns := l, tick := n } = { s with turns := l, tick := n } := rfl
    rw [e] at h
    show driverStep _ = _
    simp only [after_driver, driverStep, h]
    have hm := driverStep_move s
    cases hv : driverMove s with
    | none => rfl
    | some v =>
      rw [driverMove_eq hv] at hm
      simp only [Option.map_some, Option.getD_some]
      cases hm <;> rfl

theorem afterAll_scheduled (l' : List Agent) (s : State) (l : List Agent) (n : Nat) :
    State.afterAll { s with turns := l, tick := n } l' = { s.afterAll l' with turns := l, tick := n } := by
  induction l' generalizing s with
  | nil => rfl
  | cons b l' ih =>
    show State.afterAll (State.after b _) l' = _
    rw [after_scheduled, ih]
    rfl

/-- A run with its turns fixed is the steps of their agents. -/
theorem runTurns_eq (l : List Agent) (s : State) :
    runTurns l s = .next { s.afterAll l with turns := [], tick := s.tick + l.length } := by
  induction l generalizing s with
  | nil => rfl
  | cons a l ih =>
    have h : agentStep a (s.seen l) = .next { s.after a with turns := l, tick := s.tick + 1 } := by
      rw [agentStep_after]
      exact congrArg _ (after_scheduled s a l (s.tick + 1))
    rw [runTurns_cons h rfl, ih, afterAll_scheduled]
    simp [State.afterAll]
    omega

/-- Where one run comes to a halted state with `P`, every run does. -/
theorem endsIn_of_path (hI : Orderly I) {P : State → Prop} {n : Nat} {s t : State} (h : Path n s t)
    (ht : t.halted = true) (hs : I s) (hP : ∀ l k, P { t with turns := l, tick := k }) : endsIn s P := by
  refine ⟨n, fun rounds hn hr => ?_⟩
  rw [runTurns_eq, afterAll_rounds hI h ht hs rounds hn hr]
  exact ⟨_, rfl, hP _ _⟩

end Machine
end Sys2Proof
end

