-- ==== Sys2Proof/Laws/Operands.lean ====
section
/-! SUPPORT. The halves of the counter. -/

namespace Sys2Proof
namespace Machine

@[simp] theorem countHi_withCountHi (c : Count) (b : Byte) : countHi (withCountHi c b) = b := by
  apply BitVec.eq_of_toNat_eq
  have := (countLo c).isLt
  simp only [countHi, withCountHi, BitVec.toNat_append, BitVec.toNat_setWidth, BitVec.toNat_ushiftRight]
  rw [← Nat.shiftLeft_add_eq_or_of_lt (by simpa [countLo] using this), Nat.shiftLeft_eq]
  omega

@[simp] theorem countLo_withCountHi (c : Count) (b : Byte) : countLo (withCountHi c b) = countLo c := by
  apply BitVec.eq_of_toNat_eq
  have := (countLo c).isLt
  simp only [countLo, withCountHi, BitVec.toNat_append, BitVec.toNat_setWidth]
  rw [← Nat.shiftLeft_add_eq_or_of_lt (by simpa [countLo] using this), Nat.shiftLeft_eq]
  omega

theorem countHi_eq_extract (c : Count) : countHi c = c.extractLsb' 8 8 := by
  ext i hi
  simp [countHi]

theorem countLo_eq_extract (c : Count) : countLo c = c.extractLsb' 0 8 := by
  ext i hi
  simp [countLo]

end Machine
end Sys2Proof
end

