-- ==== Sys2Proof/Laws/PerInstr.lean ====
section
/-! SUPPORT. The family `Format`: the bytes of every well-formed instruction have the length its format gives (R82) and begin
with its opcode (R81). -/

namespace Sys2Proof
namespace Laws
namespace Format

/-- The length of the opcode and its operand (R82). -/
def size : Instr → Nat
  | .setCount _ => 3
  | .start => 1
  | .stop => 1
  | .write => 1
  | .read => 1

/-- The opcode (R81). -/
def opcode : Instr → Byte
  | .start => 0x01
  | .stop => 0x02
  | .setCount _ => 0x03
  | .write => 0x04
  | .read => 0x05

/-- Every well-formed instruction has the length of its format, and its own opcode first. -/
def Statement (i : Instr) : Prop :=
  i.wf = true → (encode i).length = size i ∧ (encode i).head? = some (opcode i)

theorem start : Statement .start := fun _ => ⟨rfl, rfl⟩

theorem stop : Statement .stop := fun _ => ⟨rfl, rfl⟩

theorem setCount (n : Nat) : Statement (.setCount n) := fun _ => ⟨rfl, rfl⟩

theorem write : Statement .write := fun _ => ⟨rfl, rfl⟩

theorem read : Statement .read := fun _ => ⟨rfl, rfl⟩

end Format
end Laws
end Sys2Proof
end

