-- ==== Sys2Proof/Tests/Slice0.lean ====
section
/-! SUPPORT. Tests: words written out from the opcode map, the well-formedness smoke test, single steps from the test vectors
of 95_test_vectors.md, and a witness for the hypotheses of each statement. -/

namespace Sys2Proof
namespace Tests

open Sys2Proof.Machine

/-- A state in FSM state `f`, with counter `c` and outbound bytes `q`; all else as after reset. -/
def mk (f : FsmState) (c : Count) (q : List Byte) : State :=
  { State.resetWith Config.params with st := f, count := c, outq := q }

/-- The state a step, or `exec`, answers. -/
def after (o : Host.Outcome State Fault Refusal) : Option State :=
  match o with
  | .next s => some s
  | .fault _ => none
  | .refused _ => none

/-! ## Words from the opcode map (R81, R83, R86) -/

theorem test_word_start : decode [0x01, 0x05] = .instr .start [0x05] := by decide

theorem test_word_stop : decode [0x02] = .instr .stop [] := by decide

/-- V-CNT-1. -/
theorem test_word_setCount : decode [0x03, 0x12, 0x34] = .instr (.setCount 0x1234) [] := by decide

theorem test_word_setCount_cut : decode [0x03, 0x12] = .incomplete := by decide

theorem test_word_write : decode [0x04, 0xA0, 0x55] = .instr .write [0xA0, 0x55] := by decide

theorem test_word_read : decode [0x05, 0x02] = .instr .read [0x02] := by decide

/-- V-DEC-1, V-DEC-3. -/
theorem test_word_ignored :
    [0x00, 0xFF, 0x06, 0x07, 0x80].all (fun b => decode [b] = .ignored b []) = true := by decide

theorem test_table_words :
    [1, 2, 3, 4, 5, 0, 6].map (decodeTableWord 8) =
      [some .start, some .stop, some (.setCount 0), some .write, some .read, none, none] := by decide

theorem test_table_word_operand : decodeTableWord 24 0x341203 = some (.setCount 0x1234) := by decide

/-! ## Well-formedness -/

theorem test_wf_refuses_count_65536 : (Instr.setCount 65536).wf = false := by decide

theorem test_wf_takes_count_65535 : (Instr.setCount 65535).wf = true := by decide

theorem test_wf_refuses_empty_outbound_channel : { Config.params with outDepth := some 0 }.wf = false := by decide

theorem test_wf_refuses_empty_inbound_channel : { Config.params with inDepth := some 0 }.wf = false := by decide

theorem test_wf_takes_default_params : Config.params.wf = true := by decide

/-! ## Single steps, expected results from the vectors and rules -/

/-- V-BUS-4: a STOP needs no START before it. -/
theorem test_stop_strobes :
    (after (engineStep { mk .decode 5 [] with op := 0x02 })).map (fun s => (s.bpend, s.bbusy, s.st, s.count)) =
      some (some .stop, true, .idle, 5) := by decide

theorem test_start_strobes :
    (after (engineStep { mk .decode 5 [] with op := 0x01 })).map (fun s => (s.bpend, s.bbusy, s.st, s.count)) =
      some (some .start, true, .idle, 5) := by decide

/-- V-DEC-5: IDLE waits for the bus. -/
theorem test_idle_waits : after (engineStep { mk .idle 0 [0x02] with bbusy := true }) =
    some { mk .idle 0 [0x02] with bbusy := true } := by decide

/-- V-CNT-5: only the high byte is written in COUNT_HIGH. -/
theorem test_countHigh : (after (engineStep (mk .countHigh 0x00AB [0x12]))).map (fun s => (s.count, s.st)) =
    some (0x12AB, .countLow) := by decide

/-- V-CNT-4. -/
theorem test_countLow : (after (engineStep (mk .countLow 0xFF00 [0xFF]))).map (fun s => (s.count, s.st)) =
    some (0xFFFF, .idle) := by decide

/-- V-WR-1: acknowledged with `count = 2`: the counter becomes 1 and the next byte is sent. -/
theorem test_write_next : (after (exec .write { mk .write 2 [0x55] with back := true })).map
    (fun s => (s.count, s.bpend, s.st, s.outq)) = some (1, some (.write 0x55), .write, []) := by decide

/-- V-WR-11: the low byte of 256 is reported. -/
theorem test_write_report : (after (exec .write (mk .report 0x0100 []))).map (fun s => (s.inq, s.count, s.st)) =
    some ([0x00], 0x0100, .idle) := by decide

/-- V-RD-1: the only byte of a read is not acknowledged. -/
theorem test_readFirst_last : (after (exec .read (mk .readFirst 1 []))).map (fun s => (s.bpend, s.count, s.st)) =
    some (some (.read false), 0, .read) := by decide

/-- V-RD-3: the second of three bytes is pushed and the last one requested without acknowledgement. -/
theorem test_read_next : (after (exec .read { mk .read 1 [] with bbyte := 0xB2 })).map
    (fun s => (s.inq, s.bpend, s.count, s.st)) = some ([0xB2], some (.read false), 0, .read) := by decide

/-- V-WR-10: a starved step in mode `redecrement`. -/
theorem test_starved_redecrement :
    (after (exec .write
      { mk .write 3 [] with back := true, par := { Config.params with starvedWrite := .redecrement } })).map
        (fun s => (s.count, s.st)) = some (2, .write) := by decide

/-- A word of the table, placed after reset, is run by the next step. -/
theorem test_placed_setCount : (after (step (State.reset.withFetchWord 24 0x341203))).map (fun s => (s.count, s.st)) =
    some (0x1234, .idle) := by decide

/-- P1: the bytes of `write(0x50, [00 AA], true)`. -/
theorem test_write_bytes :
    (Txn.write 0x50 [0x00, 0xAA] true).bytes = [0x01, 0x03, 0x00, 0x03, 0x04, 0xA0, 0x00, 0xAA, 0x02] := by decide

/-- P2: the bytes of `read(0x50, 2, true)`. -/
theorem test_read_bytes : (Txn.read 0x50 2 true).bytes =
    [0x01, 0x03, 0x00, 0x01, 0x04, 0xA1, 0x03, 0x00, 0x02, 0x05, 0x02] := by decide

/-- P5: the bytes of the Device-ID write about 0x50. -/
theorem test_deviceId_bytes :
    ((Job.init (.deviceId 0x50)).txn Config.params).bytes = [0x01, 0x03, 0x00, 0x02, 0x04, 0xF8, 0x50] := by decide

/-- E1. -/
theorem test_deviceId_fields : deviceIdDecode 0xAB 0xC4 0x2F = ⟨0xABC, 0x085, 0x7⟩ := by decide

/-- V-ID-4, V-ID-5. -/
theorem test_deviceId_fields_edges :
    deviceIdDecode 0x00 0x0F 0xF8 = ⟨0x000, 0x1FF, 0x0⟩ ∧ deviceIdDecode 0x12 0x34 0x56 = ⟨0x123, 0x08A, 0x6⟩ := by
  decide

/-- V-DRV-12. -/
theorem test_refused_call : (driverStep { mk .idle 0 [] with calls := [.write 0x80 [] true] }).refusal = some .addr := by
  decide

/-- R14: the notation `START; SET-COUNT 2; WRITE A0 55; STOP`. -/
theorem test_assemble : assemble [.start, .setCount 2, .write [0xA0, 0x55], .stop] =
    [0x01, 0x03, 0x00, 0x02, 0x04, 0xA0, 0x55, 0x02] := by decide

/-! ## Witnesses: a state and operands for the hypotheses of each statement -/

theorem witness_DecodeOfEncode : (Instr.setCount 65535).wf = true := by decide

theorem witness_EncodeOfDecode : decode [0x03, 0xFF, 0xFF, 0x01] = .instr (.setCount 65535) [0x01] := by decide

theorem witness_OperandAssembly : 65535 ≤ 65535 ∧ ∀ n, Instr.write ≠ .setCount n := by simp

theorem witness_IgnoredBytes :
    (0x06 ≤ (0x06 : Byte).toNat) ∧ (0x06 ≤ (0xFF : Byte).toNat) ∧ (mk .idle 3 [0xFF, 0x01]).st = .idle ∧
      (mk .idle 3 [0xFF, 0x01]).bbusy = false ∧ (mk .idle 3 [0xFF, 0x01]).outq = [0xFF, 0x01] := by decide

theorem witness_IdleFetches :
    ((mk .idle 0 [0x01]).st = .idle ∧ (mk .idle 0 [0x01]).bbusy = false ∧ (mk .idle 0 [0x01]).outq = [0x01]) ∧
      (mk .idle 0 []).outq = [] := by decide

/-- A stop in flight, with the Engine in IDLE. -/
theorem witness_IdleFetches_stop :
    let s := { mk .idle 0 [0x01] with bbusy := true, bpend := some .stop }
    s.busInv ∧ s.flightInv ∧ s.bpend = some .stop := by
  refine ⟨rfl, fun o h => ?_, rfl⟩
  cases h
  rfl

theorem witness_DecodeBranches :
    (mk .decode 0 []).st = .decode ∧ (mk .decode 0 []).busInv ∧ (mk .decode 0 []).flightInv :=
  ⟨rfl, rfl, fun o h => by cases h⟩

/-- One witness for each clause. -/
theorem witness_StepRunsTheDecodedInstruction :
    let s := (mk .decode 0 []).withTurns [.engine]
    (s.withTurns [.bus]).turn = .bus ∧ (s.withTurns [.driver]).turn = .driver ∧ s.turn = .engine ∧
      decode [({ s with op := 0x05 } : State).op] = .instr .read [] ∧
      decode [({ s with op := 0x03 } : State).op] = .incomplete ∧
      decode [({ s with op := 0x06 } : State).op] = .ignored 0x06 [] ∧
      (({ s with st := .countHigh, outq := [0x09] } : State).turn = .engine) ∧
      (({ s with st := .countLow, outq := [0x09] } : State).outq = [0x09]) ∧
      ({ s with st := .countLow } : State).outq = [] ∧ ({ s with st := .report } : State).turn = .engine ∧
      ({ s with st := .read } : State).turn = .engine ∧
      (({ s with st := .idle, outq := [0x01] } : State).bbusy = false) ∧
      ({ s with st := .idle, bbusy := true } : State).bbusy = true := by decide

theorem witness_PlacedWordIsRunNext :
    decodeTableWord 24 0xFFFF03 = some (.setCount 65535) ∧ decodeTableWord 8 0x04 = some .write := by decide

theorem witness_StartRuns :
    (mk .decode 5 []).st = .decode ∧ (mk .idle 5 [0x01]).st = .idle ∧ (mk .idle 5 [0x01]).bbusy = false ∧ (mk .idle 5 [0x01]).bpend = none ∧
      (mk .idle 5 [0x01]).outq = [0x01] := by decide

theorem witness_StopRuns :
    (mk .decode 5 []).st = .decode ∧ (mk .idle 5 [0x02]).st = .idle ∧ (mk .idle 5 [0x02]).bbusy = false ∧ (mk .idle 5 [0x02]).bpend = none ∧
      (mk .idle 5 [0x02]).outq = [0x02] := by decide

theorem witness_SetCountLoadsTheCounter :
    (mk .countLow 5 []).st = .countLow ∧ 65535 ≤ 65535 ∧ (mk .idle 5 [0x03, 0xFF, 0xFF]).st = .idle ∧ (mk .idle 5 [0x03, 0xFF, 0xFF]).bbusy = false ∧
      (mk .idle 5 [0x03, 0xFF, 0xFF]).outq = [0x03, 0xFF, 0xFF] := by decide

theorem witness_CountHigh :
    (mk .countHigh 5 [0x12]).st = .countHigh ∧ (mk .countHigh 5 [0x12]).outq = [0x12] ∧
      (mk .countHigh 5 []).outq = [] := by decide

theorem witness_CountLow :
    (mk .countLow 5 [0x12]).st = .countLow ∧ (mk .countLow 5 [0x12]).outq = [0x12] ∧ (mk .countLow 5 []).outq = [] := by
  decide

theorem witness_WriteIsDecoded :
    (mk .decode 0 []).st = .decode ∧ (mk .decode 0 []).count = 0 ∧ (mk .decode 1 []).count ≠ 0 := by decide

theorem witness_WriteFirst :
    (mk .writeFirst 1 [0xA0]).st = .writeFirst ∧ (mk .writeFirst 1 [0xA0]).outq = [0xA0] ∧
      (mk .writeFirst 1 []).outq = [] := by decide

/-- One witness for each clause: busy; not acknowledged with the counter 1; the last byte; more to send, with a byte and
without one in either mode. -/
theorem witness_WriteStateRule :
    let s := mk .write 1 []
    let m := { mk .write 2 [] with back := true }
    s.st = .write ∧ { s with bbusy := true }.bbusy = true ∧ (s.bbusy = false ∧ s.back = false) ∧
      ({ s with back := true }.back = true ∧ s.count = 1) ∧
      (m.bbusy = false ∧ m.back = true ∧ m.count ≠ 1 ∧ m.outq = [] ∧ m.par.starvedWrite = .hold) ∧
      { m with outq := [0x55] }.outq = [0x55] ∧
      { m with par := { Config.params with starvedWrite := .redecrement } }.par.starvedWrite = .redecrement := by decide

theorem witness_Report :
    (mk .report 256 []).st = .report ∧ (mk .report 256 []).inReady = true ∧
      { mk .report 256 [] with inq := [0x7E], par := { Config.params with inDepth := some 1 } }.inReady = false := by
  decide

theorem witness_ReadIsDecoded :
    (mk .decode 0 []).st = .decode ∧ (mk .decode 0 []).count = 0 ∧ (mk .decode 65535 []).count ≠ 0 := by decide

theorem witness_ReadFirst : (mk .readFirst 1 []).st = .readFirst := by decide

theorem witness_ReadStateRule :
    (mk .read 0 []).st = .read ∧ (mk .read 0 []).bbusy = false ∧ (mk .read 0 []).inReady = true ∧
      (mk .read 0 []).count = 0 ∧ (mk .read 1 []).count ≠ 0 ∧ { mk .read 0 [] with bbusy := true }.bbusy = true ∧
      { mk .read 1 [] with inq := [0x7E], par := { Config.params with inDepth := some 1 } }.inReady = false := by decide

theorem witness_BusConditionFrame :
    exec .stop (mk .decode 5 []) = .next { mk .idle 5 [] with bbusy := true, bpend := some .stop } := rfl

theorem witness_SetCountFrame : exec (.setCount 7) (mk .countLow 5 []) = .next (mk .idle 7 []) := rfl

theorem witness_WriteFrame :
    exec .write (mk .writeFirst 1 [0xA0]) =
      .next { mk .write 1 [] with consumed := 1, bbusy := true, bpend := some (.write 0xA0) } := rfl

theorem witness_ReadFrame :
    exec .read (mk .readFirst 1 []) = .next { mk .read 0 [] with bbusy := true, bpend := some (.read false) } := rfl

theorem witness_EngineStepLimits :
    engineStep (mk .writeFirst 1 [0xA0]) =
      .next { mk .write 1 [] with consumed := 1, bbusy := true, bpend := some (.write 0xA0) } := rfl

/-- A step of the Engine on its turn: the witness for the statements about every step. -/
theorem witness_step :
    step ((mk .readFirst 1 []).withTurns [.engine]) =
      .next { mk .read 0 [] with bbusy := true, bpend := some (.read false), tick := 1 } := rfl

/-- The counter changes in that step. -/
theorem witness_CounterPersists :
    ({ mk .read 0 [] with bbusy := true, bpend := some (.read false), tick := 1 } : State).count ≠
      ((mk .readFirst 1 []).withTurns [.engine]).count := by decide

/-- An idle bus meets the invariant; so does a write in flight in state WRITE, where the bus is busy. -/
theorem witness_BusyOnlyInWaitingStates :
    let s := (mk .readFirst 1 []).withTurns [.engine]
    let w := { mk .write 1 [] with bbusy := true, bpend := some (.write 0xA0) }
    (s.busInv ∧ s.flightInv) ∧ w.busInv ∧ w.flightInv ∧ w.bbusy = true := by
  refine ⟨⟨rfl, fun o h => by cases h⟩, rfl, fun o h => ?_, rfl⟩
  cases h
  rfl

theorem witness_CounterNeverWraps :
    let s := (mk .readFirst 1 []).withTurns [.engine]
    s.counterInv ∧ s.st ≠ .countHigh ∧ s.st ≠ .countLow := by
  refine ⟨fun _ => ?_, ?_, ?_⟩ <;> decide

theorem witness_BusCompletes :
    let s (o : BusOp) : State := { mk .idle 0 [] with bbusy := true, bpend := some o }
    (s .start).bbusy = true ∧ (s .start).bpend = some .start ∧ (s .stop).bpend = some .stop ∧
      (s (.write 0xA0)).bpend = some (.write 0xA0) ∧ (s (.read true)).bpend = some (.read true) := by decide

theorem witness_ChannelsStayWithinCapacity :
    { (mk .readFirst 1 []).withTurns [.engine] with
      inq := [0x01], par := { Config.params with inDepth := some 1, outDepth := some 1 } }.channelInv := by
  constructor <;> intro d h <;> cases h <;> decide

/-- One witness for each clause: the first byte, a byte in flight, and the end. -/
theorem witness_WriteSequenceCountsUnacked :
    let f := (mk .writeFirst 2 [0xA0]).withTurns [.engine]
    let s := { (mk .write 2 []).withTurns [.bus] with
      consumed := 1, bbusy := true, bpend := some (.write 0xA0), acks := [true] }
    let w := { (mk .report 1 []).withTurns [.engine] with consumed := 2, blog := [.write 0xA0 true, .write 0x55 false] }
    (f.turn = .engine ∧ f.st = .writeFirst ∧ f.count ≠ 0 ∧ f.outq = [0xA0] ∧ ∃ t, step f = .next t) ∧
      (2 ≤ 65535 ∧ s.par.starvedWrite = .hold ∧ s.starved = false ∧ s.writing 2 [] 0 [0xA0] ∧ ∃ t, step s = .next t) ∧
      w.written 2 [] 0 [0xA0, 0x55] 1 ∧ ∃ t, step w = .next t :=
  ⟨⟨rfl, rfl, by decide, rfl, _, rfl⟩,
    ⟨by decide, rfl, rfl, ⟨[], 0xA0, rfl, by decide, rfl, rfl, rfl, .inl ⟨rfl, rfl, rfl⟩⟩, _, rfl⟩,
    ⟨rfl, rfl, rfl, rfl, rfl, .inr ⟨by decide, [0xA0], 0x55, rfl, rfl, rfl⟩⟩, _, rfl⟩

theorem witness_FullyAcknowledgedWrite :
    let s := { mk .decode 2 [0xA0, 0x55] with op := 0x04, acks := [true, true] }
    s.st = .decode ∧ s.op = 0x04 ∧ s.bbusy = false ∧ s.count ≠ 0 ∧ [(0xA0 : Byte), 0x55].length = s.count.toNat ∧
      s.outq = [0xA0, 0x55] ++ [] ∧ s.acks = List.replicate 2 true ++ [] ∧ s.inReady = true ∧ s.bpend = none := by decide

/-- The first of two bytes not acknowledged, and the last one of two. -/
theorem witness_WriteCutShortByNak :
    let s := { mk .decode 2 [0xA0, 0x55] with op := 0x04, acks := [false] }
    let l := { s with acks := [true, false] }
    (s.st = .decode ∧ s.op = 0x04 ∧ s.bbusy = false ∧ ([] : List Byte).length < s.count.toNat ∧
      s.outq = [] ++ 0xA0 :: [0x55] ∧ s.acks = List.replicate 0 true ++ false :: [] ∧ s.inReady = true ∧
      s.bpend = none) ∧
      ([(0xA0 : Byte)].length < l.count.toNat ∧ l.outq = [0xA0] ++ 0x55 :: [] ∧
        l.acks = List.replicate 1 true ++ false :: []) := by decide

/-- One witness for each clause: the first read, a read completed with the inbound channel full, and a whole read. -/
theorem witness_ReadSequence :
    let f := (mk .readFirst 2 []).withTurns [.engine]
    let r := { (mk .read 1 []).withTurns [.engine] with
      bbyte := 0x3C, blog := [.read true 0x3C], inq := [0x00], par := { Config.params with inDepth := some 1 } }
    let s := { mk .decode 2 [] with
      op := 0x05, reads := [0x3C, 0x7E], par := { Config.params with inDepth := some 2 } }
    (f.turn = .engine ∧ f.st = .readFirst ∧ f.count ≠ 0 ∧ ∃ t, step f = .next t) ∧
      (2 ≤ 65535 ∧ r.reading 2 [] [] ∧ r.inReady = false ∧ ∃ t, step r = .next t) ∧
      s.st = .decode ∧ s.op = 0x05 ∧ s.bbusy = false ∧ s.bpend = none ∧ [(0x3C : Byte), 0x7E].length = s.count.toNat ∧
      s.reads = 0x3C :: [0x7E] ++ [] ∧ ∀ m, s.par.inDepth = some m → s.inq.length + 2 ≤ m := by
  refine ⟨⟨rfl, rfl, by decide, _, rfl⟩, ⟨by decide, ⟨by decide, rfl, rfl, .inr ⟨rfl, rfl, rfl⟩⟩, rfl, _, rfl⟩,
    rfl, rfl, rfl, rfl, rfl, rfl, fun m h => ?_⟩
  cases h
  decide

theorem witness_ZeroCountIsNoOperation :
    let s := mk .idle 9 [0x03, 0x00, 0x00, 0x04, 0xA0]
    s.st = .idle ∧ s.bbusy = false ∧ s.outq = 0x03 :: 0x00 :: 0x00 :: 0x04 :: [0xA0] := by decide

/-- The largest arguments are admitted, and each is refused one further up. -/
theorem witness_AdmissionDomains :
    admitCall (.read 127 65535 true) = .ok (.read 127 65535 true) ∧ admitCall (.read 128 0 true) = .error .addr ∧
      admitCall (.read 0 65536 true) = .error .size ∧ admitCall (.write 0 [256] true) = .error .dataByte ∧
      admitCall (.write 127 [255] true) = .ok (.write 127 [255] true) := by decide

theorem witness_RefusedCallMarksTheRun :
    let s := { mk .idle 0 [] with calls := [.poll 128] }
    s.job = none ∧ s.calls = [.poll 128] ∧ admitCall (.poll 128) = .error .addr ∧
      { (mk .readFirst 1 []).withTurns [.engine] with refusal := some .size }.refusal = some .size := by decide

theorem witness_TransactionBytes : [(0xAA : Byte)].length ≤ 65534 := by decide

/-- One witness for each clause: room and no room, waiting, popping on, the last pop of a call, and the last pop of
`device_id`'s write. -/
theorem witness_DriverMovesOneByteInOrder :
    let j : Job := Job.init (.poll 0x3C)
    let k : Job := { j with pos := 7 }
    let d : Job := { Job.init (.deviceId 0x50) with pos := 7 }
    let r : Job := { Job.init (.read 0x50 1 true) with pos := 11 }
    let s := { mk .idle 0 [] with job := some j }
    s.job = some j ∧ (j.txn s.par).bytes[j.pos]? = some 0x01 ∧ s.outRoom = true ∧
      { s with outq := [0x05], par := { Config.params with outDepth := some 1 } }.outRoom = false ∧
      (k.txn s.par).bytes.length ≤ k.pos ∧ s.inq = [] ∧
      ((r.txn s.par).bytes.length ≤ r.pos ∧ r.got.length + 1 < (r.txn s.par).inbound) ∧
      ((k.txn s.par).inbound ≤ k.got.length + 1 ∧ k.finish (k.got ++ [0x01]) = .done (.poll false)) ∧
      ((d.txn s.par).bytes.length ≤ d.pos ∧ (d.txn s.par).inbound ≤ d.got.length + 1 ∧
        d.finish (d.got ++ [0x00]) = .again { op := .deviceId 0x50, stage := .second, pos := 0, got := [] }) := by decide

theorem witness_AdmittedCallStarts :
    let s := { mk .idle 0 [] with calls := [.poll 0x3C] }
    s.job = none ∧ s.calls = [.poll 0x3C] ∧ admitCall (.poll 0x3C) = .ok (.poll 0x3C) ∧ s.outRoom = true ∧
      { s with outq := [0x05], par := { Config.params with outDepth := some 1 } }.outRoom = false := by decide

theorem witness_CallStaysInsideItsTransaction :
    { (mk .readFirst 1 []).withTurns [.engine] with job := some (Job.init (.poll 0x3C)) }.jobInv := by
  intro j h
  cases h
  decide

theorem witness_CallDataFitsTheCount :
    { (mk .readFirst 1 []).withTurns [.engine] with job := some (Job.init (.write 0x3C [0xAA] true)) }.dataInv := by
  intro j h addr data stop ho
  cases h
  cases ho
  decide

/-- An Engine step, and for each agent two states that differ only in what it does not read. -/
theorem witness_AgentsShareOnlyTheChannels :
    let s := { mk .idle 0 [0x01] with inq := [0x00], bbusy := true, bpend := some .stop }
    let d := { s with st := .read, count := 9, op := 0x05, bbusy := false, bpend := none, back := true, bbyte := 0x7E }
    let e := { s with calls := [.poll 1], job := some (Job.init (.poll 2)), results := [.poll true], acks := [true] }
    let b := { e with calls := s.calls, acks := s.acks, st := .decode, outq := [], inq := [] }
    engineStep s = .next s ∧ (sameDriver s d ∧ d.outq = s.outq ∧ d.inq = s.inq ∧ d.par = s.par ∧ d.st ≠ s.st) ∧
      (sameEngine s e ∧ sameFlight s e ∧ e.back = s.back ∧ e.bbyte = s.bbyte ∧ e.outq = s.outq ∧ e.inq = s.inq ∧
        e.par = s.par ∧ e.job ≠ s.job) ∧
      sameFlight s b ∧ sameBusOutputs s b ∧ sameDraws s b ∧ b.st ≠ s.st := by
  refine ⟨rfl, ⟨⟨rfl, rfl, rfl, rfl⟩, rfl, rfl, rfl, by decide⟩,
    ⟨⟨rfl, rfl, rfl, rfl⟩, ⟨rfl, rfl⟩, rfl, rfl, rfl, rfl, rfl, by decide⟩, ⟨rfl, rfl⟩, ⟨rfl, rfl, rfl⟩, ⟨rfl, rfl⟩,
    by decide⟩

/-- With channels of one byte and the mode `redecrement`. -/
theorem witness_PollTellsTheAcknowledgement :
    let s := { mk .idle 9 [] with
      calls := [.poll 0x3C], acks := [false],
      par := { Config.params with outDepth := some 1, inDepth := some 1, starvedWrite := .redecrement } }
    s.cleanEntry ∧ s.bpend = none ∧ s.par.wf = true ∧ s.calls = [.poll (0x3C : Addr).toNat] ∧ s.acks = false :: [] ∧
      fairRound [.bus, .driver, .engine] :=
  ⟨⟨rfl, rfl, rfl, rfl, rfl, rfl⟩, rfl, rfl, rfl, rfl, by decide, by decide, by decide⟩

/-- A write cut short whose leftover byte is no opcode, then a Device-ID query and a read, through channels of one byte. -/
theorem witness_CallsInStep :
    let s := { mk .idle 9 [] with
      calls := [.write 0x50 [0x06] true, .deviceId 0x50, .read 0x50 0 false], acks := [false, false, true],
      par := { Config.params with outDepth := some 1, inDepth := some 1 } }
    let os : List Op := [.write 0x50 [0x06] true, .deviceId 0x50, .read 0x50 0 false]
    s.cleanEntry ∧ s.bpend = none ∧ s.par.wf = true ∧ s.calls.map admitCall = os.map .ok ∧
      allInStep s.par s.busView os ∧ s.par.starvedWrite = .hold ∧
      (outcomes s.par s.busView os).1 = [.write false, .deviceId none, .read (some [])] := by
  refine ⟨⟨rfl, rfl, rfl, rfl, rfl, rfl⟩, rfl, rfl, rfl, ⟨?_, ?_, trivial, trivial⟩, rfl, rfl⟩
  · intro b hb
    have hb : b ∈ [(0x06 : Byte)] := hb
    rw [List.mem_singleton.1 hb]
    exact .inr (by decide)
  · intro _
    exact .inr (by decide)

/-! ## What calls in step do, by the programs of 95_test_vectors.md -/

/-- P2: `read(0x50, 2, true)` with every byte acknowledged. -/
theorem test_outcome_read :
    (Op.read 0x50 2 true).outcome Config.params ⟨[], [true], [0x3C, 0x7E]⟩ =
      (.read (some [0x3C, 0x7E]), ⟨[.start, .write 0xA1 true, .read true 0x3C, .read false 0x7E, .stop], [], []⟩) := by
  decide

/-- P4: `poll(0x3C)` with no device. -/
theorem test_outcome_poll :
    (Op.poll 0x3C).outcome Config.params ⟨[], [false], []⟩ =
      (.poll false, ⟨[.start, .write 0x78 false, .stop], [], []⟩) := by decide

/-- E1, P5: the Device-ID query about 0x50 that is answered `AB C4 2F`. -/
theorem test_outcome_deviceId :
    ((Op.deviceId 0x50).outcome Config.params ⟨[], [true, true, true], [0xAB, 0xC4, 0x2F]⟩).1 =
      .deviceId (some ⟨0xABC, 0x085, 0x7⟩) := by decide

theorem witness_HaltedRunStays : (mk .idle 0 []).halted = true ∧ (mk .countLow 0 []).halted = true := by decide

end Tests
end Sys2Proof
end

section
/-! PROOFS. The channels are FIFOs (R51, R52): what a move of each agent does to them, then O38. -/

namespace Sys2Proof
namespace Machine

/-- The Engine is the consumer of the outbound channel: it takes its head and counts it, or leaves the channel alone. -/
theorem EngineMove.outq_cases {s t : State} (h : EngineMove s t) :
    (t.outq = s.outq ∧ t.consumed = s.consumed) ∨ (t.consumed = s.consumed + 1 ∧ ∃ b, s.outq = b :: t.outq) := by
  cases h with
  | fetch b _ _ _ ho | countHigh b _ _ ho | countLow b _ _ ho | firstByte b _ _ ho | nextByte b _ _ _ _ _ ho =>
    exact .inr ⟨rfl, b, ho⟩
  | _ => exact .inl ⟨rfl, rfl⟩

/-- The Engine is the producer of the inbound channel: it adds one byte at its tail, or leaves the channel alone. -/
theorem EngineMove.inq_cases {s t : State} (h : EngineMove s t) : t.inq = s.inq ∨ ∃ b, t.inq = s.inq ++ [b] := by
  cases h with
  | report | lastRead | nextRead => exact .inr ⟨_, rfl⟩
  | _ => exact .inl rfl

/-- The Bus agent touches neither channel. -/
theorem BusMove.channels {s t : State} (h : BusMove s t) :
    t.outq = s.outq ∧ t.consumed = s.consumed ∧ t.inq = s.inq := by
  cases h <;> exact ⟨rfl, rfl, rfl⟩

/-- No step of the Driver counts as a byte consumed. -/
theorem DriverMove.consumed {s t : State} (h : DriverMove s t) : t.consumed = s.consumed := by
  cases h <;> rfl

/-- The Driver is the producer of the outbound channel: it adds one byte at its tail, or leaves the channel alone. -/
theorem DriverMove.outq_cases {s t : State} (h : DriverMove s t) :
    t.outq = s.outq ∨ ∃ b, t.outq = s.outq ++ [b] := by
  cases h with
  | push => exact .inr ⟨_, rfl⟩
  | _ => exact .inl rfl

/-- The Driver is the consumer of the inbound channel: it takes its head, or leaves the channel alone. -/
theorem DriverMove.inq_cases {s t : State} (h : DriverMove s t) : t.inq = s.inq ∨ ∃ b, s.inq = b :: t.inq := by
  cases h with
  | pop _ _ b _ _ _ hi | done _ _ b _ _ _ _ hi | again _ _ _ b _ _ _ hi => exact .inr ⟨b, hi⟩
  | _ => exact .inl rfl

/-- Settles O38: each step is a move of one agent, and each agent has one end of each channel, or none. -/
theorem channelsAreFifo : Obligations.ChannelsAreFifo := by
  intro s t h
  obtain ⟨ha, hm⟩ | ⟨_, hm⟩ | ⟨ha, hm⟩ := step_move h
  · exact ⟨hm.outq_cases.imp_right fun ho => .inl ⟨ha, ho⟩, hm.inq_cases.imp_right fun hi => .inl ⟨ha, hi⟩⟩
  · obtain ⟨ho, hc, hi⟩ := hm.channels
    exact ⟨.inl ⟨ho, hc⟩, .inl hi⟩
  · have hc : t.consumed = s.consumed := hm.consumed
    exact ⟨hm.outq_cases.imp (⟨·, hc⟩) fun ho => .inr ⟨ha, hc, ho⟩, hm.inq_cases.imp_right fun hi => .inr ⟨ha, hi⟩⟩

end Machine
end Sys2Proof
end

section
/-! PROOFS. The operand of SET-COUNT (R83), then O4; the bytes that are no opcode (R86, R103), then O5. -/

namespace Sys2Proof

/-- The two operand bytes are the two halves of the 16-bit value they stand for. -/
theorem ofNat_countOperand (hi lo : Byte) : BitVec.ofNat 16 (countOperand hi lo) = hi ++ lo := by
  apply BitVec.eq_of_toNat_eq
  have hlo := lo.isLt
  rw [BitVec.toNat_append, ← Nat.shiftLeft_add_eq_or_of_lt hlo, Nat.shiftLeft_eq, BitVec.toNat_ofNat, countOperand]
  omega

/-- A number of 16 bits is assembled from its quotient and its remainder by 256. -/
theorem countOperand_div_mod {n : Nat} (h : n ≤ 65535) :
    countOperand (BitVec.ofNat 8 (n / 256)) (BitVec.ofNat 8 (n % 256)) = n := by
  simp only [countOperand, BitVec.toNat_ofNat]
  omega

theorem encode_length_of_ne_setCount {i : Instr} (h : ∀ n, i ≠ .setCount n) : (encode i).length = 1 := by
  cases i with
  | setCount n => exact absurd rfl (h n)
  | start => exact (Laws.Format.start rfl).1
  | stop => exact (Laws.Format.stop rfl).1
  | write => exact (Laws.Format.write rfl).1
  | read => exact (Laws.Format.read rfl).1

/-- Settles O4: the decoder's operand is `countOperand`, which is onto the 16-bit numbers. -/
theorem operandAssembly : Obligations.OperandAssembly :=
  ⟨fun hi lo _ => ⟨rfl, ofNat_countOperand hi lo⟩,
    fun _ h => ⟨_, _, (countOperand_div_mod h).symm⟩,
    fun _ => encode_length_of_ne_setCount⟩

namespace Machine

/-- The bytes that are no opcode are those outside the opcode map. -/
theorem ignoredByte_iff (b : Byte) :
    ignoredByte b ↔ b ≠ 0x01 ∧ b ≠ 0x02 ∧ b ≠ 0x03 ∧ b ≠ 0x04 ∧ b ≠ 0x05 := by
  unfold ignoredByte
  bv_omega

theorem decode_eq_ignored_iff (b : Byte) (rest : List Byte) :
    decode (b :: rest) = .ignored b rest ↔ ignoredByte b := by
  rw [ignoredByte_iff, decode.eq_def]
  dsimp only
  constructor
  · intro h
    split_ifs at h with h1 h2 h3 h4 h5
    · split at h <;> cases h
    · exact ⟨h1, h2, h3, h4, h5⟩
  · rintro ⟨h1, h2, h3, h4, h5⟩
    rw [if_neg h1, if_neg h2, if_neg h3, if_neg h4, if_neg h5]

/-- What IDLE leaves when it has taken `b` from the stream and `rest` is left of it (R101). -/
def State.latch (s : State) (b : Byte) (rest : List Byte) : State :=
  { s with op := b, st := .decode, outq := rest, consumed := s.consumed + 1 }

/-- IDLE latches the head of the stream where the bus is idle (R101). -/
theorem engineStep_idle_of_cons {s : State} {b : Byte} {rest : List Byte} (hs : s.st = .idle)
    (hb : s.bbusy = false) (ho : s.outq = b :: rest) :
    engineStep s = .next (s.latch b rest) := by
  simp [engineStep_eq, hs, idleStep, hb, popOut_of_cons ho, State.goto, State.latch]

/-- DECODE drops a byte that is no opcode (R103). -/
theorem engineStep_decode_of_ignoredByte {s : State} (hs : s.st = .decode) (h : ignoredByte s.op) :
    engineStep s = .next (s.goto .idle) := by
  obtain ⟨h1, h2, h3, h4, h5⟩ := (ignoredByte_iff s.op).1 h
  simp only [engineStep_eq, hs]
  rw [decodeStep_eq, if_neg h1, if_neg h2, if_neg h3, if_neg h4, if_neg h5]

/-- A turn of the Engine. -/
theorem runTurns_engine {l : List Agent} {s t : State} (h : engineStep (s.seen l) = .next t) (ht : t.turns = l) :
    runTurns (.engine :: l) s = runTurns l t :=
  runTurns_cons (a := .engine) h ht

/-- Settles O5: the first turn latches the byte, and DECODE drops it in the second. -/
theorem ignoredBytesHaveNoEffect : Obligations.IgnoredBytesHaveNoEffect := by
  refine ⟨decode_eq_ignored_iff, fun s b rest h hs hb ho => ?_⟩
  have fetch := engineStep_idle_of_cons (s := s.seen [.engine]) hs hb ho
  have drop := engineStep_decode_of_ignoredByte (s := ((s.seen [.engine]).latch b rest).seen []) rfl h
  rw [runTurns_engine fetch rfl, runTurns_engine drop rfl, runTurns_nil]
  simp [State.latch, State.seen, State.goto, State.withTurns, hs]

end Machine
end Sys2Proof
end

section
/-! PROOFS. The bus while the Engine is in DECODE and in IDLE (R33); what DECODE does (R102), then O9; how IDLE holds (R101),
then O8. -/

namespace Sys2Proof
namespace Machine

/-! ## The invariants of the Bus Primitive -/

/-- A busy bus has an operation in flight. -/
theorem State.busInv.exists_flight {s : State} (h : s.busInv) (hb : s.bbusy = true) : ∃ o, s.bpend = some o :=
  Option.isSome_iff_exists.1 (h.symm.trans hb)

/-- An operation in flight keeps the bus busy. -/
theorem State.busInv.bbusy_of_flight {s : State} {o : BusOp} (h : s.busInv) (ho : s.bpend = some o) :
    s.bbusy = true :=
  h.trans (Option.isSome_of_eq_some ho)

/-- The bus is busy in IDLE, state WRITE and READ only (R33). -/
theorem busyInv_of_flightInv {s : State} (h : s.busInv) (hf : s.flightInv) : s.busyInv := by
  intro hb
  obtain ⟨o, ho⟩ := h.exists_flight hb
  have := hf o ho
  cases o with
  | start | stop => exact .inl this
  | write => exact .inr (.inl this)
  | read => exact .inr (.inr this)

/-- A START or STOP is in flight in IDLE only. -/
theorem State.flightInv.idle_of_condition {s : State} (hf : s.flightInv)
    (h : s.bpend = some .start ∨ s.bpend = some .stop) : s.st = .idle := by
  obtain h | h := h
  · exact hf .start h
  · exact hf .stop h

/-! ## DECODE -/

/-- DECODE of WRITE leaves the counter alone, and does nothing where it is 0 (R140). -/
theorem execWrite_of_decode {s : State} (hs : s.st = .decode) :
    execWrite s = .next (if s.count = 0 then { s with st := .idle } else { s with st := .writeFirst }) := by
  simp only [execWrite, hs, writeDecode, countIsZero_eq, decide_eq_true_eq]
  split_ifs <;> rfl

/-- DECODE of READ leaves the counter alone, and does nothing where it is 0 (R160). -/
theorem execRead_of_decode {s : State} (hs : s.st = .decode) :
    execRead s = .next (if s.count = 0 then { s with st := .idle } else { s with st := .readFirst }) := by
  simp only [execRead, hs, readDecode, countIsZero_eq, decide_eq_true_eq]
  split_ifs <;> rfl

/-- In DECODE the bus is idle (R33). -/
theorem bbusy_eq_false_of_decode {s : State} (hs : s.st = .decode) (h : s.busyInv) : s.bbusy = false := by
  by_contra hb
  have := h (eq_true_of_ne_false hb)
  simp [hs] at this

/-- Settles O9: DECODE goes by the latch, and only WRITE and READ look at the counter. -/
theorem decodeBranches : Obligations.DecodeBranches := by
  intro s hs
  refine ⟨fun h hf => bbusy_eq_false_of_decode hs (busyInv_of_flightInv h hf), ?_⟩
  simp only [engineStep_eq, hs]
  rw [decodeStep_eq, execWrite_of_decode hs, execRead_of_decode hs]
  split_ifs <;> rfl

/-! ## IDLE -/

/-- IDLE holds where the bus is busy or no byte is there (R101, R11). -/
theorem engineStep_idle_holds {s : State} (hs : s.st = .idle) (h : s.bbusy = true ∨ s.outq = []) :
    engineStep s = .next s := by
  simp only [engineStep_eq, hs, idleStep]
  obtain hb | ho := h
  · rw [if_pos hb]
  · simp [popOut_of_nil ho]

/-- Settles O8: IDLE latches the head of the stream or holds, and it holds while a START or STOP keeps the bus busy. -/
theorem idleFetches : Obligations.IdleFetches := by
  refine ⟨fun s hs => ⟨fun b rest => engineStep_idle_of_cons hs, engineStep_idle_holds hs⟩, fun s h hf hp => ?_⟩
  have hs := hf.idle_of_condition hp
  have hb : s.bbusy = true := hp.elim h.bbusy_of_flight h.bbusy_of_flight
  exact ⟨hs, engineStep_idle_holds hs (.inl hb)⟩

end Machine
end Sys2Proof
end

section
/-! PROOFS. The bus conditions (R120 to R123): how a condition is fetched, strobed and completed, then O12. -/

namespace Sys2Proof
namespace Machine

/-- What IDLE and DECODE leave when they have taken the opcode `b` from the stream, `rest` is left of it, and the condition
`o` is in flight. -/
def State.strobed (s : State) (b : Byte) (rest : List Byte) (o : BusOp) : State :=
  { s with op := b, outq := rest, consumed := s.consumed + 1, bbusy := true, bpend := some o, st := .idle }

/-- DECODE runs START where the latch holds its opcode (R102). -/
theorem engineStep_decode_of_start {s : State} (hs : s.st = .decode) (ho : s.op = 0x01) :
    engineStep s = exec .start s := by
  simp only [engineStep_eq, hs]
  rw [decodeStep_eq, if_pos ho]
  rfl

/-- A turn of the Bus agent completes the operation in flight (R29 item 3). -/
theorem runTurns_bus_of_flight {l : List Agent} {s : State} {o : BusOp} (hb : s.bbusy = true)
    (hp : s.bpend = some o) : runTurns (.bus :: l) s = runTurns l ((s.seen l).complete o).busDone := by
  have h : busStep (s.seen l) = ((s.seen l).complete o).busDone := by
    simp only [busStep, State.seen, hb, hp, if_true]
  exact runTurns_cons (a := .bus) (congrArg _ h) (by cases o <;> rfl)

/-- From IDLE with the bus idle, two Engine turns fetch and run an opcode whose instruction strobes `o` in DECODE. -/
theorem runTurns_condition {i : Instr} {b : Byte} {o : BusOp} {s : State} {rest : List Byte} (l : List Agent)
    (hd : ∀ t : State, t.st = .decode → t.op = b → engineStep t = exec i t)
    (hx : ∀ t : State, exec i t = .next ((t.strobe o).goto .idle))
    (hs : s.st = .idle) (hb : s.bbusy = false) (ho : s.outq = b :: rest) :
    runTurns (.engine :: .engine :: l) s = runTurns l (((s.seen (.engine :: l)).seen l).strobed b rest o) := by
  have fetch := engineStep_idle_of_cons (s := s.seen (.engine :: l)) hs hb ho
  have strobe := (hd (((s.seen (.engine :: l)).latch b rest).seen l) rfl rfl).trans (hx _)
  rw [runTurns_engine fetch rfl, runTurns_engine strobe rfl]
  rfl

/-- Settles O12: IDLE fetches the opcode, DECODE strobes the start, and the Bus agent's turn completes it. -/
theorem startRuns : Obligations.StartRuns := by
  refine ⟨fun s _ => rfl, fun s rest hs hb hp ho => ?_⟩
  have run := fun l => runTurns_condition l (fun t => engineStep_decode_of_start) (fun _ => rfl) hs hb ho
  constructor
  · rw [run, runTurns_nil]
    simp [State.strobed, State.seen, State.withTurns, hs]
  · rw [run, runTurns_bus_of_flight rfl rfl, runTurns_nil]
    simp [State.strobed, State.seen, State.withTurns, State.complete, State.busDone, hs, hb, hp]

end Machine
end Sys2Proof
end

section
/-! PROOFS. SET-COUNT's last operand byte (R132): what COUNT_LOW does, then O16. -/

namespace Sys2Proof
namespace Machine

/-- COUNT_LOW puts the head of the stream in the low half of the counter and keeps the high half (R132). -/
theorem engineStep_countLow_of_cons {s : State} {b : Byte} {rest : List Byte} (hs : s.st = .countLow)
    (ho : s.outq = b :: rest) :
    engineStep s =
      .next { s with count := countHi s.count ++ b, st := .idle, outq := rest, consumed := s.consumed + 1 } := by
  simp [engineStep_eq, hs, countLowStep, popOut_of_cons ho, exec, execSetCount, ofNat_countOperand, State.goto]

/-- COUNT_LOW holds while no byte is there (R132). -/
theorem engineStep_countLow_of_nil {s : State} (hs : s.st = .countLow) (ho : s.outq = []) :
    engineStep s = .next s := by
  simp [engineStep_eq, hs, countLowStep, popOut_of_nil ho]

/-- Settles O16: the counter becomes its high half followed by the byte taken. -/
theorem countLowTakesTheLowByte : Obligations.CountLowTakesTheLowByte := by
  refine fun s hs => ⟨fun b rest ho => ⟨_, engineStep_countLow_of_cons hs ho, ?low, ?high⟩,
    engineStep_countLow_of_nil hs⟩
  case low => exact BitVec.extractLsb'_append_eq_right
  case high => exact BitVec.extractLsb'_append_eq_left.trans (countHi_eq_extract s.count)

end Machine
end Sys2Proof
end

section
/-! PROOFS. WRITE's first byte (R141): what WRITE_FIRST does, then O18. -/

namespace Sys2Proof
namespace Machine

/-- In WRITE_FIRST, WRITE takes that state's own step. -/
theorem exec_write_of_writeFirst {s : State} (hs : s.st = .writeFirst) :
    exec .write s = .next (writeFirstStep s) := by
  simp only [exec, execWrite, hs]

/-- WRITE_FIRST hands the head of the stream to the bus (R141). -/
theorem writeFirstStep_of_cons {s : State} {b : Byte} {rest : List Byte} (ho : s.outq = b :: rest) :
    writeFirstStep s =
      { s with outq := rest, consumed := s.consumed + 1, bbusy := true, bpend := some (.write b), st := .write } := by
  simp only [writeFirstStep, popOut_of_cons ho, State.strobe, State.goto]

/-- WRITE_FIRST holds while no byte is there (R141). -/
theorem writeFirstStep_of_nil {s : State} (ho : s.outq = []) : writeFirstStep s = s := by
  simp only [writeFirstStep, popOut_of_nil ho]

/-- Settles O18: with a byte at the head and with none, by what WRITE_FIRST does in each case. -/
theorem writeFirstSendsTheFirstByte : Obligations.WriteFirstSendsTheFirstByte := by
  refine fun s hs => ⟨fun b rest ho => ?byte, fun ho => ?none⟩
  case byte => rw [exec_write_of_writeFirst hs, writeFirstStep_of_cons ho]
  case none => rw [exec_write_of_writeFirst hs, writeFirstStep_of_nil ho]

end Machine
end Sys2Proof
end

section
/-! PROOFS. READ's first byte (R161): what READ does in READ_FIRST, then O22. -/

namespace Sys2Proof
namespace Machine

/-- In READ_FIRST, READ takes that state's own step. -/
theorem exec_read_of_readFirst {s : State} (hs : s.st = .readFirst) :
    exec .read s = .next (readFirstStep s) := by
  simp only [exec, execRead, hs]

/-- Settles O22: READ_FIRST's own step has no guard, and `readFirstStep_eq` gives the state it answers. -/
theorem readFirstRequestsTheFirstByte : Obligations.ReadFirstRequestsTheFirstByte := by
  intro s hs
  simp only [exec_read_of_readFirst hs, readFirstStep_eq, ne_eq, decide_not]

end Machine
end Sys2Proof
end

section
/-! PROOFS. The handshake of Engine and Bus Primitive (R29, R33): the Engine holds while the bus is busy, and every agent keeps
an operation in flight to the state that waits for it; then O34. -/

namespace Sys2Proof
namespace Machine

/-- A bus that is not busy has nothing in flight. -/
theorem State.busInv.bpend_eq_none {s : State} (h : s.busInv) (hb : s.bbusy = false) : s.bpend = none :=
  Option.isSome_eq_false_iff.1 (h.symm.trans hb) |> Option.isNone_iff_eq_none.1

/-- The Engine holds while the bus is busy (R33): it never strobes a busy bus. -/
theorem engineStep_of_busy {s : State} (h : s.busInv) (hf : s.flightInv) (hb : s.bbusy = true) :
    engineStep s = .next s :=
  engineStep_of_disabled (engine_waits_for_bus ⟨h, hf, .inr (by simp [State.starved, hb])⟩ hb)

/-- With the bus idle, an Engine move strobes an operation together with the state that waits for it, or nothing. -/
theorem EngineMove.handshake {s t : State} (hb : s.bbusy = false) (hp : s.bpend = none) (h : EngineMove s t) :
    t.busInv ∧ t.flightInv := by
  cases h with
  | start | stop | firstByte | firstRead => exact ⟨rfl, fun o ho => by cases ho; rfl⟩
  | nextByte _ _ hs | nextRead hs => exact ⟨rfl, fun o ho => by cases ho; exact hs⟩
  | _ => exact ⟨by simp [State.busInv, hb, hp], fun o ho => absurd (hp.symm.trans ho) (by simp)⟩

/-- A turn of the Bus agent leaves the bus idle with nothing in flight. -/
theorem BusMove.handshake {s t : State} (hi : s.busInv) (h : BusMove s t) : t.busInv ∧ t.flightInv := by
  have idle {u : State} (hb : u.bbusy = false) (hp : u.bpend = none) : u.busInv ∧ u.flightInv :=
    ⟨by simp [State.busInv, hb, hp], fun o ho => absurd (hp.symm.trans ho) (by simp)⟩
  cases h with
  | hold hb => exact idle hb (hi.bpend_eq_none hb)
  | _ => exact idle rfl rfl

/-- The Driver touches neither the handshake nor the state of the Engine. -/
theorem DriverMove.handshake {s t : State} (hi : s.busInv) (hf : s.flightInv) (h : DriverMove s t) :
    t.busInv ∧ t.flightInv := by
  cases h <;> exact ⟨hi, hf⟩

/-- Every step keeps the handshake in order. -/
theorem step_handshake {s t : State} (hi : s.busInv) (hf : s.flightInv) (h : step s = .next t) :
    t.busInv ∧ t.flightInv := by
  obtain ⟨_, he⟩ | ⟨_, rfl⟩ | ⟨_, rfl⟩ := step_cases h
  · cases hb : s.bbusy with
    | true => cases (engineStep_of_busy (s := s.advance) hi hf hb).symm.trans he; exact ⟨hi, hf⟩
    | false => exact EngineMove.handshake (s := s.advance) hb (hi.bpend_eq_none hb) (engineStep_move he)
  · exact BusMove.handshake (s := s.advance) hi (busStep_move _)
  · exact DriverMove.handshake (s := s.advance) hi hf (driverStep_move _)

/-- Settles O34: the handshake is kept agent by agent, and under it a busy bus disables the Engine. -/
theorem busyOnlyInWaitingStates : Obligations.BusyOnlyInWaitingStates :=
  ⟨fun _ _ => step_handshake, fun _ => busyInv_of_flightInv, fun _ => engineStep_of_busy⟩

end Machine
end Sys2Proof
end

section
/-! PROOFS. What the moves of the three agents keep, every step keeps. -/

namespace Sys2Proof
namespace Machine

/-- A property that does not depend on the schedule and that the moves of each agent keep is kept by every step. -/
theorem step_keeps {I : State → Prop} (advance : ∀ {s}, I s → I s.advance)
    (engine : ∀ {s t}, I s → EngineMove s t → I t) (bus : ∀ {s t}, I s → BusMove s t → I t)
    (driver : ∀ {s t}, I s → DriverMove s t → I t) {s t : State} (hi : I s) (h : step s = .next t) : I t := by
  obtain ⟨_, hm⟩ | ⟨_, hm⟩ | ⟨_, hm⟩ := step_move h
  · exact engine (advance hi) hm
  · exact bus (advance hi) hm
  · exact driver (advance hi) hm

end Machine
end Sys2Proof
end

section
/-! PROOFS. The Transfer Counter (R22, R34, R134): what each agent does to it, then O33 and O35. -/

namespace Sys2Proof
namespace Machine

/-- The Engine changes the counter in five states only, and never in DECODE (R134). -/
theorem EngineMove.count_cases {s t : State} (h : EngineMove s t) :
    t.count = s.count ∨
    (s.st = .countHigh ∨ s.st = .countLow ∨ s.st = .write ∨ s.st = .readFirst ∨ s.st = .read) := by
  cases h with
  | countHigh _ _ hs | countLow _ _ hs | lastAck hs | nextByte _ _ hs | starved hs | firstRead hs | nextRead hs =>
    exact .inr (by simp [hs])
  | _ => exact .inl rfl

/-- Neither the Bus agent nor the Driver touches the FSM state or the counter. -/
theorem BusMove.st_count {s t : State} (h : BusMove s t) : t.st = s.st ∧ t.count = s.count := by
  cases h <;> exact ⟨rfl, rfl⟩

@[inherit_doc BusMove.st_count]
theorem DriverMove.st_count {s t : State} (h : DriverMove s t) : t.st = s.st ∧ t.count = s.count := by
  cases h <;> exact ⟨rfl, rfl⟩

/-- Settles O33: only an Engine move changes the counter, and only in the states that load or decrement it. -/
theorem counterPersists : Obligations.CounterPersists := by
  intro s t h hc
  obtain ⟨ha, hm⟩ | ⟨_, hm⟩ | ⟨_, hm⟩ := step_move h
  · exact ⟨ha, hm.count_cases.resolve_left hc⟩
  · exact absurd hm.st_count.2 hc
  · exact absurd hm.st_count.2 hc

/-- The invariant speaks of the FSM state and the counter only. -/
theorem State.counterInv.congr {s t : State} (h : s.counterInv) (e : t.st = s.st ∧ t.count = s.count) : t.counterInv := by
  obtain ⟨hs, hc⟩ := e
  rwa [State.counterInv, hs, hc]

theorem count_sub_one_ne_zero {c : Count} (h : c ≠ 1) : c - 1 ≠ 0 := fun e => h (sub_eq_zero.1 e)

/-- The Engine enters a state that takes bytes with a counter that is not 0, and leaves it before the counter is 0. -/
theorem EngineMove.counterInv {s t : State} (hi : s.counterInv) (h : EngineMove s t) : t.counterInv := by
  cases h with
  | hold => exact hi
  | toWrite _ hc | toRead _ hc => exact fun _ => hc
  | firstByte _ _ hs => exact fun _ => hi (.inl hs)
  | nextByte _ _ _ _ _ hc | starved _ _ _ hc => exact fun _ => count_sub_one_ne_zero hc
  | nextRead hs => simp [State.counterInv, hs]
  | _ => simp [State.counterInv]

theorem toNat_sub_one_add_one {c : Count} (h : c ≠ 0) : (c - 1).toNat + 1 = c.toNat := by
  bv_omega

/-- Outside the loading of an operand the Engine takes 1 from the counter, never from 0, or leaves it. -/
theorem EngineMove.count_decrement {s t : State} (hi : s.counterInv) (h : EngineMove s t) (h1 : s.st ≠ .countHigh)
    (h2 : s.st ≠ .countLow) : t.count = s.count ∨ (s.count ≠ 0 ∧ t.count = s.count - 1) := by
  cases h with
  | countHigh _ _ hs => exact absurd hs h1
  | countLow _ _ hs => exact absurd hs h2
  | lastAck hs | nextByte _ _ hs | starved hs => exact .inr ⟨hi (.inr (.inl hs)), rfl⟩
  | firstRead hs => exact .inr ⟨hi (.inr (.inr hs)), rfl⟩
  | nextRead _ _ _ hc => exact .inr ⟨hc, rfl⟩
  | _ => exact .inl rfl

/-- Settles O35: the counter is checked where a state that takes bytes is entered, and again before each decrement. -/
theorem counterNeverWraps : Obligations.CounterNeverWraps := by
  refine ⟨fun s t => step_keeps id EngineMove.counterInv (fun hi h => hi.congr h.st_count)
    fun hi h => hi.congr h.st_count, fun s t hi h h1 h2 => ?_⟩
  refine ((engineStep_move h).count_decrement hi h1 h2).imp_right fun ⟨hc, e⟩ => ⟨hc, ?_⟩
  rw [e, toNat_sub_one_add_one hc]

end Machine
end Sys2Proof
end

section
/-! PROOFS. The parameters never change, then O32; every step answers a next state, then O31; the channels keep to their
capacities (R53), then O39. -/

namespace Sys2Proof
namespace Machine

theorem EngineMove.par {s t : State} (h : EngineMove s t) : t.par = s.par := by cases h <;> rfl

theorem BusMove.par {s t : State} (h : BusMove s t) : t.par = s.par := by cases h <;> rfl

theorem DriverMove.par {s t : State} (h : DriverMove s t) : t.par = s.par := by cases h <;> rfl

/-- Settles O32: no move of an agent writes the parameters. -/
theorem parametersNeverChange : Obligations.ParametersNeverChange := by
  intro s t h
  obtain ⟨_, hm⟩ | ⟨_, hm⟩ | ⟨_, hm⟩ := step_move h
  · exact hm.par
  · exact hm.par
  · exact hm.par

/-- Settles O31: the agent whose turn it is answers a next state. -/
theorem everyStepAnswersNext : Obligations.EveryStepAnswersNext :=
  fun s => ⟨_, agentStep_after s.turn s.advance⟩

/-- The Engine pushes where there is room, and a channel that loses its head still fits. -/
theorem EngineMove.channelInv {s t : State} (hi : s.channelInv) (h : EngineMove s t) : t.channelInv := by
  obtain ⟨ho, hq⟩ := hi
  have tail {b rest} (e : s.outq = b :: rest) : fits s.par.outDepth rest := fits_tail (e ▸ ho)
  cases h with
  | fetch _ _ _ _ e | countHigh _ _ _ e | countLow _ _ _ e | firstByte _ _ _ e | nextByte _ _ _ _ _ _ e =>
    exact ⟨tail e, hq⟩
  | report _ hr | lastRead _ _ hr | nextRead _ _ hr => exact ⟨ho, fits_snoc _ hr⟩
  | _ => exact ⟨ho, hq⟩

theorem BusMove.channelInv {s t : State} (hi : s.channelInv) (h : BusMove s t) : t.channelInv := by
  cases h <;> exact hi

/-- The Driver pushes where there is room, and a channel that loses its head still fits. -/
theorem DriverMove.channelInv {s t : State} (hi : s.channelInv) (h : DriverMove s t) : t.channelInv := by
  obtain ⟨ho, hq⟩ := hi
  have tail {b rest} (e : s.inq = b :: rest) : fits s.par.inDepth rest := fits_tail (e ▸ hq)
  cases h with
  | push _ _ _ _ _ hr => exact ⟨fits_snoc _ hr, hq⟩
  | pop _ _ _ _ _ _ e | done _ _ _ _ _ _ _ e | again _ _ _ _ _ _ _ e => exact ⟨ho, tail e⟩
  | _ => exact ⟨ho, hq⟩

/-- Settles O39: each agent pushes only where the channel has room. -/
theorem channelsStayWithinCapacity : Obligations.ChannelsStayWithinCapacity :=
  fun _ _ => step_keeps id EngineMove.channelInv BusMove.channelInv DriverMove.channelInv

end Machine
end Sys2Proof
end

section
/-! PROOFS. Decoder and encoder are inverse to each other (R81, R82, R83), then O1, O2 and O3; the instruction of a word that is
placed, then O11. -/

namespace Sys2Proof

/-- Settles O1: the words are closed, and the decoder evaluates. -/
theorem specWordsDecode : Obligations.SpecWordsDecode := by
  unfold Obligations.SpecWordsDecode
  decide

/-- Settles O2: every opcode is its own row of the opcode map, and the two operand bytes give the operand back. -/
theorem decodeOfEncode : Obligations.DecodeOfEncode := by
  intro i rest hwf
  cases i with
  | setCount n =>
    have hn : n ≤ 65535 := Nat.le_of_lt_succ (of_decide_eq_true hwf)
    have h : decode (encode (.setCount n) ++ rest) = .instr (.setCount (countOperand _ _)) rest := rfl
    rw [h, countOperand_div_mod hn]
  | start | stop | write | read => rfl

/-- The bytes of SET-COUNT with an operand that the decoder assembled. -/
theorem encode_setCount_countOperand (hi lo : Byte) : encode (.setCount (countOperand hi lo)) = [0x03, hi, lo] := by
  have h1 : (countOperand hi lo) / 256 = hi.toNat := by simp only [countOperand]; omega
  have h2 : (countOperand hi lo) % 256 = lo.toNat := by simp only [countOperand]; omega
  simp only [encode, h1, h2, BitVec.ofNat_toNat, BitVec.setWidth_eq]

theorem wf_setCount_countOperand (hi lo : Byte) : (Instr.setCount (countOperand hi lo)).wf = true := by
  refine decide_eq_true ?_
  simp only [countOperand]
  omega

/-- Settles O3: the row of the opcode map that the first byte is in gives the instruction, and no other row has that byte. -/
theorem encodeOfDecode : Obligations.EncodeOfDecode := by
  intro bs rest i h
  match bs with
  | [] => cases h
  | b :: bs =>
    rw [decode.eq_def] at h
    dsimp only at h
    split_ifs at h with h1 h2 h3 h4 h5
    · cases h; exact ⟨rfl, by rw [h1]; rfl⟩
    · cases h; exact ⟨rfl, by rw [h2]; rfl⟩
    · match bs with
      | [] => cases h
      | [_] => cases h
      | hi :: lo :: bs => cases h; exact ⟨wf_setCount_countOperand hi lo, by rw [h3, encode_setCount_countOperand]; rfl⟩
    · cases h; exact ⟨rfl, by rw [h4]; rfl⟩
    · cases h; exact ⟨rfl, by rw [h5]; rfl⟩

namespace Machine

/-- A table word that is an instruction begins with its bytes. -/
theorem decodeTableWord_eq_some {nbits w : Nat} {i : Instr} (h : decodeTableWord nbits w = some i) :
    ∃ rest, decode (tableBytes nbits w) = .instr i rest ∧ i.wf = true ∧ tableBytes nbits w = encode i ++ rest := by
  unfold decodeTableWord at h
  cases hd : decode (tableBytes nbits w) with
  | instr j rest =>
    rw [hd] at h
    cases h
    exact ⟨rest, rfl, encodeOfDecode _ _ _ hd⟩
  | ignored | incomplete => rw [hd] at h; cases h

/-- A placed instruction other than SET-COUNT stands in the latch, with the Engine in DECODE (log 12). -/
theorem placeWord_of_ne_setCount {s : State} {nbits w : Nat} {i : Instr} {rest : List Byte}
    (hd : decode (tableBytes nbits w) = .instr i rest) (hb : tableBytes nbits w = encode i ++ rest)
    (hi : ∀ n, i ≠ .setCount n) :
    placeWord s nbits w = { s with op := (encode i).headD 0, turns := .engine :: s.turns, st := .decode } := by
  have ho : (tableBytes nbits w).headD 0 = (encode i).headD 0 := by rw [hb]; cases i <;> rfl
  cases i with
  | setCount n => exact absurd rfl (hi n)
  | start | stop | write | read => simp only [placeWord, hd, ho]

/-- A placed SET-COUNT has its operand in the counter's high half and at the head of the stream (log 12). -/
theorem placeWord_of_setCount {s : State} {nbits w n : Nat} {rest : List Byte}
    (hd : decode (tableBytes nbits w) = .instr (.setCount n) rest)
    (hb : tableBytes nbits w = encode (.setCount n) ++ rest) :
    placeWord s nbits w =
      { s with op := 0x03, turns := .engine :: s.turns, st := .countLow,
               count := withCountHi s.count (BitVec.ofNat 8 (n / 256)),
               outq := BitVec.ofNat 8 (n % 256) :: s.outq } := by
  have ho : (tableBytes nbits w).headD 0 = 0x03 := by rw [hb]; rfl
  simp only [placeWord, hd, ho]

/-- DECODE runs the instruction that the latch alone is the encoding of. -/
theorem engineStep_decode_of_encode {s : State} {i : Instr} (hs : s.st = .decode) (hi : ∀ n, i ≠ .setCount n)
    (ho : s.op = (encode i).headD 0) : engineStep s = exec i s := by
  have hd : decode [s.op] = .instr i [] := by
    rw [ho]
    cases i with
    | setCount n => exact absurd rfl (hi n)
    | start | stop | write | read => rfl
  simp only [engineStep, hs, decodeStep, hd]

/-- Settles O11: the step is the Engine's, in DECODE with the opcode in the latch, or in COUNT_LOW with the operand at hand. -/
theorem placedWordIsRunNext : Obligations.PlacedWordIsRunNext := by
  intro s nbits w i h
  obtain ⟨rest, hd, hwf, hb⟩ := decodeTableWord_eq_some h
  have inDecode (hi : ∀ n, i ≠ .setCount n) : step (s.withFetchWord nbits w) =
      exec i { s with op := (encode i).headD 0, st := .decode, tick := s.tick + 1 } := by
    rw [State.withFetchWord, placeWord_of_ne_setCount hd hb hi]
    exact engineStep_decode_of_encode (s := { s with op := _, st := _, tick := s.tick + 1 }) rfl hi rfl
  cases i with
  | setCount n =>
    have hn : n ≤ 65535 := Nat.le_of_lt_succ (of_decide_eq_true hwf)
    have inCountLow : step (s.withFetchWord nbits w) =
        exec
          (.setCount (countOperand (countHi (withCountHi s.count (BitVec.ofNat 8 (n / 256)))) (BitVec.ofNat 8 (n % 256))))
          { s with op := 0x03, st := .countLow, count := withCountHi s.count (BitVec.ofNat 8 (n / 256)),
                   consumed := s.consumed + 1, tick := s.tick + 1 } := by
      rw [State.withFetchWord, placeWord_of_setCount hd hb]
      rfl
    rw [inCountLow, countHi_withCountHi, countOperand_div_mod hn]
  | start | stop | write | read => exact inDecode (by simp)

end Machine
end Sys2Proof
end

section
/-! PROOFS. The state after reset (R35, R240), then O6 and O7. -/

namespace Sys2Proof
namespace Machine

/-- Settles O6: by the definition of the reset state. -/
theorem resetValues : Obligations.ResetValues :=
  fun _ => ⟨rfl, rfl, rfl, rfl, rfl, rfl, rfl, rfl⟩

/-- Settles O7: nothing is in flight, no call is in progress and the channels are empty. -/
theorem resetMeetsInvariants : Obligations.ResetMeetsInvariants := by
  intro p
  refine ⟨⟨rfl, rfl, rfl, rfl, rfl, rfl⟩, rfl, ?flight, ?counter, ?channels, ?job, ?data⟩
  case flight => exact fun _ h => nomatch h
  case counter => simp [State.counterInv, State.resetWith]
  case channels => exact ⟨fun _ _ => Nat.zero_le _, fun _ _ => Nat.zero_le _⟩
  case job => exact fun _ h => nomatch h
  case data => exact fun _ h => nomatch h

end Machine
end Sys2Proof
end

section
/-! PROOFS. A halted state (R252): no step leaves it, then O59. -/

namespace Sys2Proof
namespace Machine

/-- Whether an agent can step does not depend on the schedule. -/
theorem enabled_advance (s : State) (a : Agent) : s.advance.enabled a = s.enabled a := by
  cases a with
  | engine | bus => rfl
  | driver =>
    have h : driverMove s.advance = (driverMove s).map (·.overBus s.advance) := driverMove_overBus s s.advance
    simp only [State.enabled, h, Option.isSome_map]

theorem halted_advance (s : State) : s.advance.halted = s.halted := by
  simp only [State.halted, enabled_advance]

/-- Settles O59: an agent with no enabled step holds, and the schedule decides nothing about that. -/
theorem haltedRunStays : Obligations.HaltedRunStays := by
  intro s h
  have ha : s.advance.halted = true := (halted_advance s).trans h
  refine ⟨?_, ha, ?_⟩
  · have hold := after_of_disabled (enabled_of_halted ha s.turn)
    exact (agentStep_after s.turn s.advance).trans (congrArg _ hold)
  · cases hs : s.settled <;> simp [State.runOver, State.runStuck, h, hs]

end Machine
end Sys2Proof
end

section
/-! PROOFS. Admission of a call (R181, R227): what each argument check admits, then O45; a refused call, then O46. -/

namespace Sys2Proof
namespace Machine

theorem admitAddr_eq_ok {a : Nat} {x : Addr} : admitAddr a = .ok x ↔ a ≤ 127 ∧ x = BitVec.ofNat 7 a := by
  unfold admitAddr
  split_ifs with h
  · simp [Nat.le_of_lt_succ h, eq_comm]
  · simp only [false_iff]
    omega

theorem admitSize_eq_ok {n : Nat} {x : Count} : admitSize n = .ok x ↔ n ≤ 65535 ∧ x = BitVec.ofNat 16 n := by
  unfold admitSize
  split_ifs with h
  · simp [Nat.le_of_lt_succ h, eq_comm]
  · simp only [false_iff]
    omega

theorem admitData_eq_ok {d : List Nat} {x : List Byte} :
    admitData d = .ok x ↔ (∀ b ∈ d, b ≤ 255) ∧ d.length ≤ 65534 ∧ x = d.map (BitVec.ofNat 8) := by
  have hany : d.any (fun b => 256 ≤ b) = true ↔ ¬ ∀ b ∈ d, b ≤ 255 := by simp [Nat.lt_iff_add_one_le]
  unfold admitData
  split_ifs with h1 h2
  · simp [hany.1 h1]
  · simp only [false_iff]
    omega
  · have hb : ∀ b ∈ d, b ≤ 255 := not_not.1 (mt hany.2 h1)
    rw [Except.ok.injEq, eq_comm]
    exact ⟨fun e => ⟨hb, by omega, e⟩, fun ⟨_, _, e⟩ => e⟩

/-- A write is admitted when its address and its data are, with what they were admitted as. -/
theorem admitCall_write_eq_ok {a : Nat} {d : List Nat} {p : Bool} {o : Op} :
    admitCall (.write a d p) = .ok o ↔ ∃ x y, admitAddr a = .ok x ∧ admitData d = .ok y ∧ o = .write x y p := by
  simp only [admitCall]
  cases admitAddr a <;> cases admitData d <;> simp [eq_comm]

/-- A read is admitted when its address and its size are, with what they were admitted as. -/
theorem admitCall_read_eq_ok {a n : Nat} {p : Bool} {o : Op} :
    admitCall (.read a n p) = .ok o ↔ ∃ x y, admitAddr a = .ok x ∧ admitSize n = .ok y ∧ o = .read x y p := by
  simp only [admitCall]
  cases admitAddr a <;> cases admitSize n <;> simp [eq_comm]

theorem admitCall_poll_eq_ok {a : Nat} {o : Op} :
    admitCall (.poll a) = .ok o ↔ ∃ x, admitAddr a = .ok x ∧ o = .poll x := by
  simp only [admitCall]
  cases admitAddr a <;> simp [eq_comm]

theorem admitCall_deviceId_eq_ok {a : Nat} {o : Op} :
    admitCall (.deviceId a) = .ok o ↔ ∃ x, admitAddr a = .ok x ∧ o = .deviceId x := by
  simp only [admitCall]
  cases admitAddr a <;> simp [eq_comm]

/-- Settles O45: a call is admitted argument by argument. -/
theorem admissionDomains : Obligations.AdmissionDomains := by
  refine ⟨fun a d p o => ?_, fun a n p o => ?_, fun a o => ?_, fun a o => ?_⟩
  · simp only [admitCall_write_eq_ok, admitAddr_eq_ok, admitData_eq_ok]
    aesop
  · simp only [admitCall_read_eq_ok, admitAddr_eq_ok, admitSize_eq_ok]
    aesop
  · simp only [admitCall_poll_eq_ok, admitAddr_eq_ok]
    aesop
  · simp only [admitCall_deviceId_eq_ok, admitAddr_eq_ok]
    aesop

/-- A refused call only marks the run, with the first reason there was (R227, log 14). -/
theorem driverStep_of_refused {s : State} {c : Call} {rest : List Call} {r : RefuseReason} (hj : s.job = none)
    (hc : s.calls = c :: rest) (ha : admitCall c = .error r) :
    driverStep s = { s with calls := rest, refusal := s.refusal.or (some r) } := by
  simp [driverStep, driverMove, hj, hc, ha]

theorem EngineMove.driver {s t : State} (h : EngineMove s t) : sameDriver s t := by
  cases h <;> exact ⟨rfl, rfl, rfl, rfl⟩

theorem BusMove.driver {s t : State} (h : BusMove s t) : sameDriver s t := by
  cases h <;> exact ⟨rfl, rfl, rfl, rfl⟩

/-- Only a refused call marks the run, and a mark that is there stays. -/
theorem DriverMove.refusal_of_some {s t : State} {r : RefuseReason} (hr : s.refusal = some r) (h : DriverMove s t) :
    t.refusal = some r := by
  cases h with
  | refuse => simp [hr]
  | _ => exact hr

theorem sameDriver.results {s t : State} (h : sameDriver s t) : t.results = s.results := by
  obtain ⟨_, _, hr, _⟩ := h
  exact hr

theorem sameDriver.refusal {s t : State} (h : sameDriver s t) : t.refusal = s.refusal := by
  obtain ⟨_, _, _, hr⟩ := h
  exact hr

theorem sameEngine.count {s t : State} (h : sameEngine s t) : t.count = s.count := by
  obtain ⟨_, hc, _⟩ := h
  exact hc

theorem sameEngine.consumed {s t : State} (h : sameEngine s t) : t.consumed = s.consumed := by
  obtain ⟨_, _, _, hc⟩ := h
  exact hc

/-- Settles O46: `Option.or` keeps the first reason. -/
theorem refusedCallMarksTheRun : Obligations.RefusedCallMarksTheRun := by
  refine ⟨fun s c rest r hj hc ha => ?_, fun s t r => ?_⟩
  · rw [driverStep_of_refused hj hc ha]
    cases s.refusal <;> rfl
  · exact step_keeps (I := fun s => s.refusal = some r) id (fun hr h => h.driver.refusal.trans hr)
      (fun hr h => h.driver.refusal.trans hr) DriverMove.refusal_of_some

end Machine
end Sys2Proof
end

section
/-! PROOFS. The bytes of a transaction (R182, R184), then O47; the transactions of a call (R186, R187), then O48; their numbers of
bytes (R193), then O49. -/

namespace Sys2Proof
namespace Machine

/-- The address byte is twice the address, and one more for a read. -/
theorem addrByte_eq (a : Addr) (rw : Bool) : addrByte a rw = BitVec.ofNat 8 (2 * a.toNat + rw.toNat) := by
  apply BitVec.eq_of_toNat_eq
  have ha := a.isLt
  have hlt : a.toNat <<< 1 < 2 ^ 8 := by rw [Nat.shiftLeft_eq]; omega
  have hshift : (BitVec.setWidth 8 a <<< 1).toNat = a.toNat <<< 1 := by
    rw [BitVec.toNat_shiftLeft, BitVec.toNat_setWidth, Nat.mod_eq_of_lt (by omega : a.toNat < 2 ^ 8),
      Nat.mod_eq_of_lt hlt]
  have hor : a.toNat <<< 1 ||| rw.toNat = a.toNat <<< 1 + rw.toNat :=
    (Nat.shiftLeft_add_eq_or_of_lt rw.toNat_lt _).symm
  have hrw : (if rw then 1 else 0 : Byte).toNat = rw.toNat := by cases rw <;> rfl
  rw [addrByte, BitVec.toNat_or, hshift, hrw, hor, BitVec.toNat_ofNat, Nat.shiftLeft_eq]
  have := rw.toNat_le
  omega

/-- The target byte of the Device-ID write is the address, or twice it (R187, D13). -/
theorem targetByte_eq (p : Params) (a : Addr) : targetByte p a = deviceIdTargetByte p a := by
  apply BitVec.eq_of_toNat_eq
  have ha := a.isLt
  unfold targetByte deviceIdTargetByte
  cases p.deviceIdTarget
  · simp
  · simp [Nat.shiftLeft_eq]
    omega

/-- The bytes of `[STOP]` (R90). -/
theorem assemble_stopStmts (p : Bool) : assemble (stopStmts p) = if p then [0x02] else [] := by
  cases p <;> rfl

theorem assemble_append (p q : List Stmt) : assemble (p ++ q) = assemble p ++ assemble q := List.flatMap_append

/-- START, SET-COUNT and WRITE with the address byte and the data, and `[STOP]` (R182). -/
theorem bytes_write (a : Addr) (d : List Byte) (p : Bool) :
    (Txn.write a d p).bytes =
      [0x01, 0x03, BitVec.ofNat 8 ((1 + d.length) / 256), BitVec.ofNat 8 (1 + d.length), 0x04,
        BitVec.ofNat 8 (2 * a.toNat)] ++ d ++ (if p then [0x02] else []) := by
  have hlo : BitVec.ofNat 8 ((1 + d.length) % 256) = BitVec.ofNat 8 (1 + d.length) := by
    apply BitVec.eq_of_toNat_eq
    simp
  have ha : addrByte a false = BitVec.ofNat 8 (2 * a.toNat) := addrByte_eq a false
  rw [Txn.bytes, Txn.stmts, assemble_append, assemble_stopStmts, ← ha, ← hlo]
  simp [assemble, Stmt.bytes, encode]

/-- START, a WRITE of the address byte alone, SET-COUNT and READ, and `[STOP]` (R184). -/
theorem bytes_read (a : Addr) (n : Count) (p : Bool) :
    (Txn.read a n p).bytes =
      [0x01, 0x03, 0x00, 0x01, 0x04, BitVec.ofNat 8 (2 * a.toNat + 1), 0x03, n.extractLsb' 8 8, n.extractLsb' 0 8,
        0x05] ++ (if p then [0x02] else []) := by
  have ha : addrByte a true = BitVec.ofNat 8 (2 * a.toNat + 1) := addrByte_eq a true
  have hhi : BitVec.ofNat 8 (n.toNat / 256) = n.extractLsb' 8 8 := by
    apply BitVec.eq_of_toNat_eq
    simp [Nat.shiftRight_eq_div_pow]
  have hlo : BitVec.ofNat 8 (n.toNat % 256) = n.extractLsb' 0 8 := by
    apply BitVec.eq_of_toNat_eq
    simp
  rw [Txn.bytes, Txn.stmts, assemble_append, assemble_stopStmts, ← ha, ← hhi, ← hlo]
  rfl

/-- Settles O47: the bytes of the assembled statements. -/
theorem transactionBytes : Obligations.TransactionBytes :=
  ⟨fun a d p _ => bytes_write a d p, bytes_read⟩

/-- Settles O48: by the definition of the transactions, and the target byte. -/
theorem callTransactions : Obligations.CallTransactions :=
  fun p _ _ _ a => ⟨fun _ _ => rfl, fun _ _ => rfl, rfl,
    congrArg (fun b => Txn.write 0x7C [b] p.deviceIdWriteStop) (targetByte_eq p a), rfl⟩

theorem length_bytes_write (a : Addr) (d : List Byte) (p : Bool) :
    (Txn.write a d p).bytes.length = 6 + d.length + (if p then 1 else 0) := by
  rw [bytes_write]
  cases p <;> simp <;> omega

theorem length_bytes_read (a : Addr) (n : Count) (p : Bool) :
    (Txn.read a n p).bytes.length = 10 + (if p then 1 else 0) := by
  rw [bytes_read]
  cases p <;> rfl

/-- Settles O49: the numbers of bytes of the transactions each operation is made of. -/
theorem byteBudget : Obligations.ByteBudget :=
  ⟨fun a d p => ⟨length_bytes_write a d p, rfl⟩, fun a n p => ⟨length_bytes_read a n p, rfl⟩,
    fun p a _ _ => ⟨length_bytes_write a [] true, rfl, length_bytes_write deviceIdAddr [targetByte p a] _,
      length_bytes_read deviceIdAddr 3 _, rfl⟩⟩

end Machine
end Sys2Proof
end

section
/-! PROOFS. The Driver's byte sequencer (R55, R180): what a call does next, then O50 and O51. -/

namespace Sys2Proof
namespace Machine

/-- A call with a byte left to push pushes it where there is room. -/
theorem jobMove_push {s : State} {j : Job} {b : Byte} (hb : (j.txn s.par).bytes[j.pos]? = some b)
    (hr : s.outRoom = true) :
    jobMove s j = some { s with outq := s.outq ++ [b], job := some { j with pos := j.pos + 1 } } := by
  simp only [jobMove, hb, hr, if_true, State.pushOut]

/-- It is suspended where there is none (R55). -/
theorem jobMove_full {s : State} {j : Job} {b : Byte} (hb : (j.txn s.par).bytes[j.pos]? = some b)
    (hr : s.outRoom = false) : jobMove s j = none := by
  simp [jobMove, hb, hr]

/-- A call with all its bytes pushed is suspended while the inbound channel is empty (R55). -/
theorem jobMove_empty {s : State} {j : Job} (hp : (j.txn s.par).bytes.length ≤ j.pos) (hi : s.inq = []) :
    jobMove s j = none := by
  simp [jobMove, List.getElem?_eq_none hp, hi]

/-- Otherwise it pops the head of the inbound channel. -/
theorem jobMove_pop {s : State} {j : Job} {b : Byte} {rest : List Byte} (hp : (j.txn s.par).bytes.length ≤ j.pos)
    (hi : s.inq = b :: rest) : jobMove s j = some (afterPop { s with inq := rest } j (j.got ++ [b])) := by
  simp [jobMove, List.getElem?_eq_none hp, hi]

theorem driverMove_of_job {s : State} {j : Job} (hj : s.job = some j) : driverMove s = jobMove s j := by
  simp only [driverMove, hj]

theorem driverMove_of_admitted {s : State} {c : Call} {rest : List Call} {o : Op} (hj : s.job = none)
    (hc : s.calls = c :: rest) (ha : admitCall c = .ok o) :
    driverMove s = jobMove { s with calls := rest } (Job.init o) := by
  simp only [driverMove, hj, hc, ha]

theorem driverStep_of_none {s : State} (h : driverMove s = none) : driverStep s = s := by
  simp [driverStep, h]

theorem driverStep_of_pop {s : State} {j : Job} {b : Byte} {rest : List Byte} (hj : s.job = some j)
    (hp : (j.txn s.par).bytes.length ≤ j.pos) (hi : s.inq = b :: rest) :
    driverStep s = afterPop { s with inq := rest } j (j.got ++ [b]) :=
  driverMove_eq ((driverMove_of_job hj).trans (jobMove_pop hp hi))

/-- Settles O50: a push or a wait while there are bytes left to push, then a pop or a wait. -/
theorem driverMovesOneByteInOrder : Obligations.DriverMovesOneByteInOrder := by
  refine ⟨fun s j b hj hb => ⟨fun hr => ?push, fun hr => ?full⟩, fun s j hj hp => ⟨fun hi => ?empty, ?more, ?done, ?again⟩,
    fun s hj hc => ?idle⟩
  case push => exact driverMove_eq ((driverMove_of_job hj).trans (jobMove_push hb hr))
  case full => exact driverStep_of_none ((driverMove_of_job hj).trans (jobMove_full hb hr))
  case empty => exact driverStep_of_none ((driverMove_of_job hj).trans (jobMove_empty hp hi))
  case more =>
    intro b rest hi hm
    rw [driverStep_of_pop hj hp hi, afterPop, if_pos (by simpa using hm)]
  case done =>
    intro b rest r hi hm hf
    rw [driverStep_of_pop hj hp hi, afterPop, if_neg (by simpa using hm), hf]
  case again =>
    intro b rest j' hi hm hf
    rw [driverStep_of_pop hj hp hi, afterPop, if_neg (by simpa using hm), hf]
  case idle => exact driverStep_of_none (by simp only [driverMove, hj, hc])

/-- Every transaction begins with START. -/
theorem head_bytes (t : Txn) : t.bytes[0]? = some 0x01 := by
  cases t <;> rfl

/-- Settles O51: the first move of an admitted call pushes the first byte of its transaction. -/
theorem admittedCallStarts : Obligations.AdmittedCallStarts := by
  intro s c rest o hj hc ha
  have hb : ((Job.init o).txn s.par).bytes[(Job.init o).pos]? = some 0x01 := head_bytes _
  have hm := driverMove_of_admitted hj hc ha
  exact ⟨fun hr => driverMove_eq (hm.trans (jobMove_push (s := { s with calls := rest }) hb hr)),
    fun hr => driverStep_of_none (hm.trans (jobMove_full (s := { s with calls := rest }) hb hr))⟩

end Machine
end Sys2Proof
end

section
/-! PROOFS. The response interpreter (R183, R185 to R188): the status byte, then O52 and O53; the Device-ID fields, then O54. -/

namespace Sys2Proof
namespace Machine

@[simp] theorem statusOk_cons (st : Byte) (ds : List Byte) : statusOk (st :: ds) = decide (st = 0) := rfl

/-- Settles O52: by the response interpreter and the test of the status byte. -/
theorem resultsOfStatus : Obligations.ResultsOfStatus := by
  intro st ds g k got a
  simp [Job.finish]

/-- Settles O53: by the response interpreter, stage by stage. -/
theorem deviceIdResult : Obligations.DeviceIdResult := by
  intro st b0 b1 b2 k got a
  simp [Job.finish, deviceIdOf]

/-- The bits of the three bytes of a Device-ID response, high byte first. -/
theorem getLsbD_threeBytes (b0 b1 b2 : Byte) (k : Nat) :
    (b0 ++ b1 ++ b2 : BitVec 24).getLsbD k =
      if k < 8 then b2.getLsbD k else if k < 16 then b1.getLsbD (k - 8) else b0.getLsbD (k - 16) := by
  rw [BitVec.getLsbD_append, BitVec.getLsbD_append]
  by_cases h8 : k < 8
  · simp only [if_pos h8]
  · have h16 : k - 8 < 8 ↔ k < 16 := by omega
    simp only [if_neg h8, h16, Nat.sub_sub]

/-- The shifts and masks of the decoder pick the bits of the 24-bit value, bit by bit. -/
theorem deviceIdDecode_eq (b0 b1 b2 : Byte) : deviceIdDecode b0 b1 b2 = deviceIdBytes [b0, b1, b2] := by
  simp only [deviceIdDecode, deviceIdBytes, DeviceId.mk.injEq]
  refine ⟨?manufacturer, ?partIdent, ?revision⟩ <;>
    (ext i hi; simp [getLsbD_threeBytes]; interval_cases i <;> simp)

/-- Settles O54: each field by its bits, and the three bit ranges are adjacent. -/
theorem deviceIdFields : Obligations.DeviceIdFields := by
  intro b0 b1 b2 v
  rw [deviceIdDecode_eq]
  refine ⟨rfl, rfl, rfl, ?_⟩
  have high : v.extractLsb' 12 12 ++ v.extractLsb' 3 9 = v.extractLsb' 3 21 :=
    BitVec.extractLsb'_append_extractLsb'_eq_extractLsb' rfl
  have all : v.extractLsb' 3 21 ++ v.extractLsb' 0 3 = v.extractLsb' 0 24 :=
    BitVec.extractLsb'_append_extractLsb'_eq_extractLsb' rfl
  exact (congrArg (fun x : BitVec 21 => x ++ v.extractLsb' 0 3) high).trans (all.trans BitVec.extractLsb'_eq_self)

end Machine
end Sys2Proof
end

section
/-! PROOFS. The call in progress (R180, R193): it stands inside its running transaction, then O55; its data fit the counter (C4),
then O56. -/

namespace Sys2Proof
namespace Machine

theorem inbound_pos (t : Txn) : 0 < t.inbound := by
  cases t <;> simp [Txn.inbound]

/-- Only the write of `device_id` is followed by a second transaction (R187). -/
theorem finish_eq_again {j j' : Job} {got : List Byte} (h : j.finish got = .again j') :
    ∃ a, j' = { op := .deviceId a, stage := .second, pos := 0, got := [] } := by
  obtain ⟨op, stage, pos, g⟩ := j
  cases op with
  | deviceId a =>
    cases stage with
    | first =>
      simp only [Job.finish] at h
      split_ifs at h
      exact ⟨a, (Finish.again.inj h).symm⟩
    | second => cases h
  | _ => cases h

/-- The call stands inside its running transaction: `State.jobInv`, of one call. -/
def Job.inside (p : Params) (j : Job) : Prop :=
  j.pos ≤ (j.txn p).bytes.length ∧ j.got.length < (j.txn p).inbound ∧ (j.got ≠ [] → j.pos = (j.txn p).bytes.length)

theorem jobInv_iff (s : State) : s.jobInv ↔ ∀ j, s.job = some j → j.inside s.par := Iff.rfl

/-- A transaction with nothing pushed and nothing popped. -/
theorem Job.inside_of_start (p : Params) (op : Op) (g : Stage) : (Job.mk op g 0 []).inside p :=
  ⟨Nat.zero_le _, inbound_pos _, fun h => absurd rfl h⟩

theorem Running.inside {s : State} {j : Job} {calls : List Call} (hi : s.jobInv) (h : Running s j calls) :
    j.inside s.par := by
  cases h with
  | going j hj => exact hi j hj
  | starting _ _ o => exact Job.inside_of_start s.par o .first

/-- A push moves on among the outbound bytes, before any pop. -/
theorem Job.inside.push {p : Params} {j : Job} {b : Byte} (h : j.inside p) (hb : (j.txn p).bytes[j.pos]? = some b) :
    ({ j with pos := j.pos + 1 } : Job).inside p := by
  obtain ⟨-, hg, hn⟩ := h
  have hlt := (List.getElem?_eq_some_iff.1 hb).1
  exact ⟨hlt, hg, fun h => absurd (hn h) (Nat.ne_of_lt hlt)⟩

/-- A pop that is not the last one comes after all pushes. -/
theorem Job.inside.pop {p : Params} {j : Job} (b : Byte) (h : j.inside p) (hp : (j.txn p).bytes.length ≤ j.pos)
    (hm : j.got.length + 1 < (j.txn p).inbound) : ({ j with got := j.got ++ [b] } : Job).inside p := by
  obtain ⟨hle, -, -⟩ := h
  refine ⟨hle, ?_, fun _ => Nat.le_antisymm hle hp⟩
  rw [List.length_append]
  exact hm

theorem sameDriver.jobInv {s t : State} (hd : sameDriver s t) (hp : t.par = s.par) (hi : s.jobInv) : t.jobInv := by
  obtain ⟨-, hj, -, -⟩ := hd
  simpa only [jobInv_iff, hj, hp] using hi

/-- A Driver move leaves no call, or one inside its transaction. -/
theorem DriverMove.jobInv {s t : State} (hi : s.jobInv) (h : DriverMove s t) : t.jobInv := by
  have running {u : State} {j : Job} (hj : u.job = some j) (h : j.inside u.par) : u.jobInv := fun k hk =>
    Option.some.inj (hj.symm.trans hk) ▸ h
  cases h with
  | hold => exact hi
  | refuse => exact hi
  | push j _ b hrun hb => exact running rfl ((hrun.inside hi).push hb)
  | pop j _ b _ hrun hp _ hm => exact running rfl ((hrun.inside hi).pop b hp hm)
  | done => exact fun _ h => nomatch h
  | again j j' _ _ _ _ _ _ _ hf =>
    obtain ⟨a, rfl⟩ := finish_eq_again hf
    exact running rfl (Job.inside_of_start _ (.deviceId a) .second)

/-- Settles O55: the Driver pushes before it pops and counts its pops, and no one else touches a call. -/
theorem callStaysInsideItsTransaction : Obligations.CallStaysInsideItsTransaction :=
  fun _ _ => step_keeps id (fun hi h => h.driver.jobInv h.par hi) (fun hi h => h.driver.jobInv h.par hi)
    DriverMove.jobInv

/-- The data of the operation fit the 16-bit count: `State.dataInv`, of one call. -/
def Op.dataFits (o : Op) : Prop := ∀ addr data stop, o = .write addr data stop → data.length ≤ 65534

theorem dataInv_iff (s : State) : s.dataInv ↔ ∀ j, s.job = some j → j.op.dataFits := Iff.rfl

/-- Admission refuses data that do not fit (R181, C4). -/
theorem dataFits_of_admitted {c : Call} {o : Op} (h : admitCall c = .ok o) : o.dataFits := by
  rintro addr data stop rfl
  cases c with
  | write a d p =>
    obtain ⟨x, y, -, hd, e⟩ := admitCall_write_eq_ok.1 h
    obtain ⟨-, hlen, rfl⟩ := admitData_eq_ok.1 hd
    cases e
    simpa using hlen
  | read a n p => obtain ⟨_, _, -, -, e⟩ := admitCall_read_eq_ok.1 h; cases e
  | poll a => obtain ⟨_, -, e⟩ := admitCall_poll_eq_ok.1 h; cases e
  | deviceId a => obtain ⟨_, -, e⟩ := admitCall_deviceId_eq_ok.1 h; cases e

theorem Running.dataFits {s : State} {j : Job} {calls : List Call} (hi : s.dataInv) (h : Running s j calls) :
    j.op.dataFits := by
  cases h with
  | going j hj => exact hi j hj
  | starting _ _ o _ _ ha => exact dataFits_of_admitted ha

theorem sameDriver.dataInv {s t : State} (hd : sameDriver s t) (hi : s.dataInv) : t.dataInv := by
  obtain ⟨-, hj, -, -⟩ := hd
  simpa only [dataInv_iff, hj] using hi

/-- A Driver move keeps the operation of a call. -/
theorem DriverMove.dataInv {s t : State} (hi : s.dataInv) (h : DriverMove s t) : t.dataInv := by
  have running {u : State} {j : Job} (hj : u.job = some j) (h : j.op.dataFits) : u.dataInv := fun k hk =>
    Option.some.inj (hj.symm.trans hk) ▸ h
  cases h with
  | hold => exact hi
  | refuse => exact hi
  | push j _ _ hrun | pop j _ _ _ hrun => exact running rfl (show j.op.dataFits from hrun.dataFits hi)
  | done => exact fun _ h => nomatch h
  | again j j' _ _ _ _ _ _ _ hf =>
    obtain ⟨a, rfl⟩ := finish_eq_again hf
    exact running rfl (fun _ _ _ h => nomatch h)

/-- Settles O56: data are checked on admission, and no step changes the arguments of a call. -/
theorem callDataFitsTheCount : Obligations.CallDataFitsTheCount :=
  fun _ _ => step_keeps id (fun hi h => h.driver.dataInv hi) (fun hi h => h.driver.dataInv hi) DriverMove.dataInv

end Machine
end Sys2Proof
end

section
/-! PROOFS. STOP (R122) from the stream to the bus trace, then O13; SET-COUNT (R130, R131) from the stream to the counter, then O15
and O14; a count of 0 (R133), then O44. -/

namespace Sys2Proof
namespace Machine

/-- Settles O13: IDLE fetches the opcode, DECODE strobes the stop, and the Bus agent's turn completes it. -/
theorem stopRuns : Obligations.StopRuns := by
  refine ⟨fun s _ => rfl, fun s rest hs hb hp ho => ?_⟩
  have decodes (t : State) (ht : t.st = .decode) (hop : t.op = 0x02) : engineStep t = exec .stop t :=
    engineStep_decode_of_encode ht (by simp) hop
  have run := fun l => runTurns_condition l decodes (fun _ => rfl) hs hb ho
  constructor
  · rw [run, runTurns_nil]
    simp [State.strobed, State.seen, State.withTurns, hs]
  · rw [run, runTurns_bus_of_flight rfl rfl, runTurns_nil]
    simp [State.strobed, State.seen, State.withTurns, State.complete, State.busDone, hs, hb, hp]

/-- DECODE of SET-COUNT goes to take its operand (R102). -/
theorem engineStep_decode_of_setCount {s : State} (hs : s.st = .decode) (ho : s.op = 0x03) :
    engineStep s = .next (s.goto .countHigh) := by
  simp only [engineStep_eq, hs]
  rw [decodeStep_eq, ho]
  rfl

/-- What COUNT_HIGH leaves when it has taken the high byte `b` from the stream and `rest` is left of it (R131). -/
def State.highTaken (s : State) (b : Byte) (rest : List Byte) : State :=
  { s with count := withCountHi s.count b, st := .countLow, outq := rest, consumed := s.consumed + 1 }

/-- COUNT_HIGH puts the head of the stream in the high half of the counter (R131). -/
theorem engineStep_countHigh_of_cons {s : State} {b : Byte} {rest : List Byte} (hs : s.st = .countHigh)
    (ho : s.outq = b :: rest) : engineStep s = .next (s.highTaken b rest) := by
  simp [engineStep_eq, hs, countHighStep, popOut_of_cons ho, State.goto, State.highTaken]

/-- COUNT_HIGH holds while no byte is there (R131). -/
theorem engineStep_countHigh_of_nil {s : State} (hs : s.st = .countHigh) (ho : s.outq = []) :
    engineStep s = .next s := by
  simp [engineStep_eq, hs, countHighStep, popOut_of_nil ho]

/-- Settles O15: the high half is the byte taken, and the low half is the low half before. -/
theorem countHighTakesTheHighByte : Obligations.CountHighTakesTheHighByte := by
  refine fun s hs => ⟨fun b rest ho => ⟨_, engineStep_countHigh_of_cons hs ho, ?high, ?low⟩,
    engineStep_countHigh_of_nil hs⟩
  case high => rw [← countHi_eq_extract, countHi_withCountHi]
  case low => rw [← countLo_eq_extract, ← countLo_eq_extract, countLo_withCountHi]

/-- What SET-COUNT leaves when it has taken its three bytes from the stream, the operand `h`, `l`, and `rest` is left of it. -/
def State.counted (s : State) (h l : Byte) (rest : List Byte) : State :=
  { s with op := 0x03, outq := rest, consumed := s.consumed + 3, count := BitVec.ofNat 16 (h.toNat * 256 + l.toNat) }

/-- From IDLE with the bus idle, four Engine turns fetch and run SET-COUNT. -/
theorem runTurns_setCount {s : State} {h l : Byte} {rest : List Byte} (ts : List Agent) (hs : s.st = .idle)
    (hb : s.bbusy = false) (ho : s.outq = 0x03 :: h :: l :: rest) :
    runTurns (.engine :: .engine :: .engine :: .engine :: ts) s =
      runTurns ts { s.counted h l rest with turns := ts, tick := s.tick + 4 } := by
  let s1 := (s.seen (.engine :: .engine :: .engine :: ts)).latch 0x03 (h :: l :: rest)
  let s2 := (s1.seen (.engine :: .engine :: ts)).goto .countHigh
  let s3 := (s2.seen (.engine :: ts)).highTaken h (l :: rest)
  have fetch := engineStep_idle_of_cons (s := s.seen (.engine :: .engine :: .engine :: ts)) hs hb ho
  have operand := engineStep_decode_of_setCount (s := s1.seen (.engine :: .engine :: ts)) rfl rfl
  have high := engineStep_countHigh_of_cons (s := s2.seen (.engine :: ts)) rfl rfl
  have low := engineStep_countLow_of_cons (s := s3.seen ts) rfl rfl
  rw [runTurns_engine fetch rfl, runTurns_engine operand rfl, runTurns_engine high rfl, runTurns_engine low rfl]
  have hc : countHi s3.count ++ l = BitVec.ofNat 16 (h.toNat * 256 + l.toNat) := by
    rw [← countOperand, ofNat_countOperand]
    exact congrArg (· ++ l) (countHi_withCountHi s.count h)
  simp only [State.counted, ← hc, ← hs]
  rfl

/-- Settles O14: the operand fits the counter; and the bytes taken in COUNT_HIGH and COUNT_LOW are its two halves. -/
theorem setCountLoadsTheCounter : Obligations.SetCountLoadsTheCounter := by
  refine ⟨fun s n _ hn => ⟨BitVec.ofNat 16 n, rfl, ?_⟩, fun s h l rest hs hb ho => ?_⟩
  · rw [BitVec.toNat_ofNat]
    omega
  · rw [runTurns_setCount [] hs hb ho, runTurns_nil]
    rfl

/-- DECODE of WRITE or READ with a count of 0 goes back to IDLE (R140, R160). -/
theorem engineStep_decode_of_zero_count {s : State} (hs : s.st = .decode) (ho : s.op = 0x04 ∨ s.op = 0x05)
    (hc : s.count = 0) : engineStep s = .next { s with st := .idle } := by
  obtain ho | ho := ho
  · rw [engineStep_decode_of_encode (i := .write) hs (by simp) ho]
    exact (execWrite_of_decode hs).trans (by rw [if_pos hc])
  · rw [engineStep_decode_of_encode (i := .read) hs (by simp) ho]
    exact (execRead_of_decode hs).trans (by rw [if_pos hc])

/-- From IDLE with the bus idle and a count of 0, two Engine turns fetch WRITE or READ and drop it. -/
theorem runTurns_of_zero_count {s : State} {o : Byte} {rest : List Byte} (hop : o = 0x04 ∨ o = 0x05) (hs : s.st = .idle)
    (hb : s.bbusy = false) (hc : s.count = 0) (ho : s.outq = o :: rest) :
    runTurns [.engine, .engine] s =
      .next { s with op := o, outq := rest, consumed := s.consumed + 1, turns := [], tick := s.tick + 2 } := by
  have fetch := engineStep_idle_of_cons (s := s.seen [.engine]) hs hb ho
  have drop := engineStep_decode_of_zero_count (s := ((s.seen [.engine]).latch o rest).seen []) rfl hop hc
  rw [runTurns_engine fetch rfl, runTurns_engine drop rfl, runTurns_nil]
  simp [State.latch, State.seen, State.withTurns, hs]

/-- Settles O44: SET-COUNT leaves the counter 0, and the opcode after it is fetched and does nothing. -/
theorem zeroCountIsNoOperation : Obligations.ZeroCountIsNoOperation := by
  intro s o rest hop hs hb ho
  have zero : BitVec.ofNat 16 ((0x00 : Byte).toNat * 256 + (0x00 : Byte).toNat) = 0 := by decide
  rw [runTurns_setCount _ hs hb ho, State.counted, zero]
  exact runTurns_of_zero_count hop hs hb rfl rfl

end Machine
end Sys2Proof
end

section
/-! PROOFS. WRITE and READ, state by state (R140 to R143, R160 to R162), then O17, O21, O19, O20 and O23. -/

namespace Sys2Proof
namespace Machine

/-- Settles O17: by what DECODE of WRITE does. -/
theorem writeIsDecoded : Obligations.WriteIsDecoded :=
  fun _ hs => ⟨fun hc => (execWrite_of_decode hs).trans (by rw [if_pos hc]),
    fun hc => (execWrite_of_decode hs).trans (by rw [if_neg hc])⟩

/-- Settles O21: by what DECODE of READ does. -/
theorem readIsDecoded : Obligations.ReadIsDecoded :=
  fun _ hs => ⟨fun hc => (execRead_of_decode hs).trans (by rw [if_pos hc]),
    fun hc => (execRead_of_decode hs).trans (by rw [if_neg hc])⟩

/-- In state WRITE, WRITE takes that state's own step. -/
theorem exec_write_of_write {s : State} (hs : s.st = .write) : exec .write s = .next (writeStep s) := by
  simp only [exec, execWrite, hs]

/-- In REPORT, WRITE takes that state's own step. -/
theorem exec_write_of_report {s : State} (hs : s.st = .report) : exec .write s = .next (reportStep s) := by
  simp only [exec, execWrite, hs]

/-- In READ, READ takes that state's own step. -/
theorem exec_read_of_read {s : State} (hs : s.st = .read) : exec .read s = .next (readStep s) := by
  simp only [exec, execRead, hs]

theorem writeStep_of_busy {s : State} (hb : s.bbusy = true) : writeStep s = s := by
  simp [writeStep, hb]

theorem writeStep_of_nak {s : State} (hb : s.bbusy = false) (ha : s.back = false) :
    writeStep s = { s with st := .report } := by
  simp [writeStep, hb, ha, State.goto]

theorem writeStep_of_last {s : State} (hb : s.bbusy = false) (ha : s.back = true) (hc : s.count = 1) :
    writeStep s = { s with count := 0, st := .report } := by
  simp [writeStep, hb, ha, hc, State.goto]

theorem writeStep_of_cons {s : State} {b : Byte} {rest : List Byte} (hb : s.bbusy = false) (ha : s.back = true)
    (hc : s.count ≠ 1) (ho : s.outq = b :: rest) :
    writeStep s =
      { s with outq := rest, consumed := s.consumed + 1, count := s.count - 1, bbusy := true,
               bpend := some (.write b) } := by
  simp only [writeStep, hb, ha, countIsOne_eq, decide_eq_false hc, popOut_of_cons ho]
  rfl

/-- With no byte to send, state WRITE goes by the mode (D6). -/
theorem writeStep_of_nil {s : State} (hb : s.bbusy = false) (ha : s.back = true) (hc : s.count ≠ 1) (ho : s.outq = []) :
    writeStep s = starvedStep s := by
  simp only [writeStep, hb, ha, countIsOne_eq, decide_eq_false hc, popOut_of_nil ho]
  rfl

theorem starvedStep_of_hold {s : State} (hm : s.par.starvedWrite = .hold) : starvedStep s = s := by
  simp only [starvedStep, hm]

theorem starvedStep_of_redecrement {s : State} (hm : s.par.starvedWrite = .redecrement) :
    starvedStep s = { s with count := s.count - 1 } := by
  simp only [starvedStep, hm]

/-- Settles O19: one clause for each case of state WRITE. -/
theorem writeStateRule : Obligations.WriteStateRule := by
  intro s hs
  rw [exec_write_of_write hs]
  refine ⟨fun hb => ?busy, fun hb ha => ?nak, fun hb ha hc => ?last,
    fun hb ha hc => ⟨fun b rest ho => ?next, fun ho hm => ?hold, fun ho hm => ?redecrement⟩⟩
  case busy => rw [writeStep_of_busy hb]
  case nak => rw [writeStep_of_nak hb ha]
  case last => rw [writeStep_of_last hb ha hc]
  case next => rw [writeStep_of_cons hb ha hc ho]
  case hold => rw [writeStep_of_nil hb ha hc ho, starvedStep_of_hold hm]
  case redecrement => rw [writeStep_of_nil hb ha hc ho, starvedStep_of_redecrement hm]

/-- The low byte of the counter as a number. -/
theorem countLo_eq_ofNat (c : Count) : countLo c = BitVec.ofNat 8 (c.toNat % 256) := by
  apply BitVec.eq_of_toNat_eq
  simp [countLo]

theorem reportStep_of_ready {s : State} (hr : s.inReady = true) :
    reportStep s = { s with inq := s.inq ++ [countLo s.count], st := .idle } := by
  simp [reportStep, hr, State.goto, State.pushIn]

theorem reportStep_of_full {s : State} (hr : s.inReady = false) : reportStep s = s := by
  simp [reportStep, hr]

/-- Settles O20: REPORT pushes where there is room and holds where there is none. -/
theorem reportPushesTheLowByte : Obligations.ReportPushesTheLowByte := by
  intro s hs
  rw [exec_write_of_report hs, ← countLo_eq_ofNat]
  exact ⟨fun hr => by rw [reportStep_of_ready hr], fun hr => by rw [reportStep_of_full hr]⟩

theorem readStep_of_last {s : State} (hb : s.bbusy = false) (hr : s.inReady = true) (hc : s.count = 0) :
    readStep s = { s with inq := s.inq ++ [s.bbyte], st := .idle } := by
  simp [readStep, hb, hr, hc, State.goto, State.pushIn]

theorem readStep_of_more {s : State} (hb : s.bbusy = false) (hr : s.inReady = true) (hc : s.count ≠ 0) :
    readStep s =
      { s with inq := s.inq ++ [s.bbyte], bbusy := true, bpend := some (.read (decide (s.count ≠ 1))),
               count := s.count - 1 } := by
  have ha : decide (s.count ≠ 1) = !s.countIsOne := by rw [countIsOne_eq]; exact decide_not
  rw [ha]
  simp only [readStep, hb, hr, countIsZero_eq, decide_eq_false hc, requestByte]
  rfl

theorem readStep_of_wait {s : State} (h : s.bbusy = true ∨ s.inReady = false) : readStep s = s := by
  obtain h | h := h <;> simp [readStep, h]

/-- Settles O23: one clause for each case of READ. -/
theorem readStateRule : Obligations.ReadStateRule := by
  intro s hs
  rw [exec_read_of_read hs]
  exact ⟨fun hb hr hc => by rw [readStep_of_last hb hr hc], fun hb hr hc => by rw [readStep_of_more hb hr hc],
    fun h => by rw [readStep_of_wait h]⟩

end Machine
end Sys2Proof
end

section
/-! PROOFS. A turn of the system is the step of its agent, and the Engine's the step of its state (R100, R106), then O10. -/

namespace Sys2Proof
namespace Machine

/-- Settles O10: each FSM state by its own rule. -/
theorem stepRunsTheDecodedInstruction : Obligations.StepRunsTheDecodedInstruction := by
  refine ⟨fun s h => by rw [step, h]; rfl, fun s h => by rw [step, h]; rfl, fun s ht => ?_⟩
  have he : step s = engineStep s.advance := by rw [step, ht]; rfl
  rw [he]
  refine ⟨rfl, ?instr, ?operand, ?ignored, ?countHigh, ?countLow, ?wait, ?write, ?read, ?fetch, ?idle⟩
  case instr =>
    intro i rest hs hd
    have hd : decode [s.advance.op] = .instr i rest := hd
    simp only [engineStep, advance_st, hs, decodeStep, hd]
  case operand =>
    intro hs hd
    have hd : decode [s.advance.op] = .incomplete := hd
    simp only [engineStep, advance_st, hs, decodeStep, hd]
    rfl
  case ignored =>
    intro b rest hs hd
    have hd : decode [s.advance.op] = .ignored b rest := hd
    simp only [engineStep, advance_st, hs, decodeStep, hd]
    rfl
  case countHigh =>
    intro hi rest hs ho
    rw [engineStep_countHigh_of_cons (s := s.advance) hs ho, ← countLo_eq_extract]
    rfl
  case countLow =>
    intro lo rest hs ho
    refine ⟨countOperand (countHi s.count) lo, rfl, ?_⟩
    have ho : s.advance.outq = lo :: rest := ho
    simp only [engineStep, advance_st, hs, countLowStep, popOut_of_cons ho]
    rfl
  case wait =>
    rintro (hs | hs) ho
    · exact engineStep_countHigh_of_nil hs ho
    · exact engineStep_countLow_of_nil hs ho
  case write => rintro (hs | hs | hs) <;> simp only [engineStep, advance_st, hs]
  case read => rintro (hs | hs) <;> simp only [engineStep, advance_st, hs]
  case fetch => exact fun b rest hs hb ho => engineStep_idle_of_cons (s := s.advance) hs hb ho
  case idle => exact fun hs h => engineStep_idle_holds (s := s.advance) hs h

end Machine
end Sys2Proof
end

section
/-! PROOFS. What the instructions leave unchanged, then O24, O25, O26 and O27. -/

namespace Sys2Proof
namespace Machine

/-- Settles O24: START and STOP strobe and go to IDLE. -/
theorem busConditionFrame : Obligations.BusConditionFrame := by
  rintro s t i (rfl | rfl) h <;> cases h <;>
    exact ⟨rfl, rfl, rfl, rfl, rfl, ⟨rfl, rfl, rfl⟩, ⟨rfl, rfl, rfl, rfl⟩, ⟨rfl, rfl⟩, rfl, rfl, rfl⟩

/-- Settles O25: SET-COUNT loads the counter and goes to IDLE. -/
theorem setCountFrame : Obligations.SetCountFrame := by
  rintro s t n h
  cases h
  exact ⟨rfl, rfl, rfl, rfl, ⟨rfl, rfl⟩, ⟨rfl, rfl, rfl⟩, ⟨rfl, rfl, rfl, rfl⟩, ⟨rfl, rfl⟩, rfl, rfl, rfl⟩

/-- An Engine step writes no state of the Driver, no output of the Bus Primitive, no trace, no answer of the devices and no
schedule. -/
theorem EngineMove.frame {s t : State} (h : EngineMove s t) :
    sameBusOutputs s t ∧ sameDriver s t ∧ sameDraws s t ∧ sameSetting s t := by
  cases h <;> exact ⟨⟨rfl, rfl, rfl⟩, ⟨rfl, rfl, rfl, rfl⟩, ⟨rfl, rfl⟩, rfl, rfl, rfl⟩

/-- WRITE in a state that is not its own only moves the Engine (log 11). -/
theorem exec_write_of_other {s : State} (h1 : s.st ≠ .writeFirst) (h2 : s.st ≠ .write) (h3 : s.st ≠ .report) :
    ∃ f, exec .write s = .next (s.goto f) := by
  cases hs : s.st with
  | writeFirst => exact absurd hs h1
  | write => exact absurd hs h2
  | report => exact absurd hs h3
  | _ => exact ⟨if s.countIsZero then .idle else .writeFirst, by simp only [exec, execWrite, hs]; rfl⟩

/-- READ in a state that is not its own only moves the Engine (log 11). -/
theorem exec_read_of_other {s : State} (h1 : s.st ≠ .readFirst) (h2 : s.st ≠ .read) :
    ∃ f, exec .read s = .next (s.goto f) := by
  cases hs : s.st with
  | readFirst => exact absurd hs h1
  | read => exact absurd hs h2
  | _ => exact ⟨if s.countIsZero then .idle else .readFirst, by simp only [exec, execRead, hs]; rfl⟩

/-- Settles O26: state by state, with what each state's own step can do. -/
theorem writeFrame : Obligations.WriteFrame := by
  intro s t h
  by_cases own : s.st = .writeFirst ∨ s.st = .write ∨ s.st = .report
  · have hm : EngineMove s t := by
      refine engineStep_move (Eq.trans ?_ h)
      obtain hs | hs | hs := own <;> simp only [engineStep, hs]
    obtain ⟨hb, hd, hr, hg⟩ := hm.frame
    cases hm with
    | hold => exact ⟨rfl, hb, hd, hr, hg, fun _ => rfl, fun _ => rfl, fun _ => .inl rfl, .inl ⟨rfl, rfl, rfl, rfl⟩⟩
    | firstByte b _ hs ho =>
      exact ⟨rfl, hb, hd, hr, hg, fun _ => rfl, fun _ => rfl, fun _ => .inl rfl, .inr ⟨b, .inl hs, ho, rfl, rfl, rfl⟩⟩
    | nextByte b _ hs _ _ _ ho =>
      exact ⟨rfl, hb, hd, hr, hg, fun h => absurd hs h, fun _ => rfl, fun _ => .inl rfl,
        .inr ⟨b, .inr hs, ho, rfl, rfl, rfl⟩⟩
    | nak hs | lastAck hs | starved hs =>
      exact ⟨rfl, hb, hd, hr, hg, fun h => absurd hs h, fun _ => rfl, fun _ => .inl rfl, .inl ⟨rfl, rfl, rfl, rfl⟩⟩
    | report hs =>
      exact ⟨rfl, hb, hd, hr, hg, fun _ => rfl, fun h => absurd hs h, fun _ => .inr rfl, .inl ⟨rfl, rfl, rfl, rfl⟩⟩
    | fetch _ _ hs | start hs | stop hs | operand hs | nothing hs | toWrite hs | toRead hs | countHigh _ _ hs
    | countLow _ _ hs | firstRead hs | lastRead hs | nextRead hs => simp [hs] at own
  · obtain ⟨h1, h2, h3⟩ := by simpa only [not_or] using own
    obtain ⟨f, e⟩ := exec_write_of_other h1 h2 h3
    cases e.symm.trans h
    exact ⟨rfl, ⟨rfl, rfl, rfl⟩, ⟨rfl, rfl, rfl, rfl⟩, ⟨rfl, rfl⟩, ⟨rfl, rfl, rfl⟩, fun _ => rfl, fun _ => rfl,
      fun _ => .inl rfl, .inl ⟨rfl, rfl, rfl, rfl⟩⟩

/-- Settles O27: state by state, with what each state's own step can do. -/
theorem readFrame : Obligations.ReadFrame := by
  intro s t h
  by_cases own : s.st = .readFirst ∨ s.st = .read
  · have hm : EngineMove s t := by
      refine engineStep_move (Eq.trans ?_ h)
      obtain hs | hs := own <;> simp only [engineStep, hs]
    have ha : (!decide (s.count = 1)) = decide (s.count ≠ 1) := decide_not.symm
    obtain ⟨hb, hd, hr, hg⟩ := hm.frame
    cases hm with
    | hold => exact ⟨rfl, rfl, rfl, hb, hd, hr, hg, fun _ => rfl, fun _ => .inl rfl, .inl ⟨rfl, rfl, rfl⟩⟩
    | firstRead hs =>
      exact ⟨rfl, rfl, rfl, hb, hd, hr, hg, fun _ => rfl, fun _ => .inl rfl,
        .inr ⟨.inl hs, rfl, rfl, by rw [← ha]⟩⟩
    | lastRead hs =>
      exact ⟨rfl, rfl, rfl, hb, hd, hr, hg, fun h => absurd hs h, fun _ => .inr rfl, .inl ⟨rfl, rfl, rfl⟩⟩
    | nextRead hs =>
      exact ⟨rfl, rfl, rfl, hb, hd, hr, hg, fun h => absurd hs h, fun _ => .inr rfl,
        .inr ⟨.inr hs, rfl, rfl, by rw [← ha]⟩⟩
    | fetch _ _ hs | start hs | stop hs | operand hs | nothing hs | toWrite hs | toRead hs | countHigh _ _ hs
    | countLow _ _ hs | firstByte _ _ hs | nak hs | lastAck hs | nextByte _ _ hs | starved hs | report hs =>
      simp [hs] at own
  · obtain ⟨h1, h2⟩ := by simpa only [not_or] using own
    obtain ⟨f, e⟩ := exec_read_of_other h1 h2
    cases e.symm.trans h
    exact ⟨rfl, rfl, rfl, ⟨rfl, rfl, rfl⟩, ⟨rfl, rfl, rfl, rfl⟩, ⟨rfl, rfl⟩, ⟨rfl, rfl, rfl⟩, fun _ => rfl,
      fun _ => .inl rfl, .inl ⟨rfl, rfl, rfl⟩⟩

end Machine
end Sys2Proof
end

section
/-! PROOFS. The transition table (R106): in each FSM state its rows go by the same cases as the Engine's step, then O28. -/

namespace Sys2Proof
namespace Machine

/-- The rows of the table for one FSM state. -/
def rowsOf (f : FsmState) : List Row := transitionTable.filter fun r => r.state == f

theorem enabledRows_eq (s : State) : s.enabledRows = (rowsOf s.st).filter (·.guard s) := by
  simp only [State.enabledRows, rowsOf, List.filter_filter, Bool.and_comm]

/-- The table answers as the Engine does in `s`: one row applies, and its action is the Engine's step. -/
def State.tabulated (s : State) : Prop := ∃ r, s.enabledRows = [r] ∧ engineStep s = .next (r.act s)

/-- Row `k` is the one that applies, and does what the Engine does. -/
theorem tabulated_of_row {s : State} (k : Fin 27) (hr : (rowsOf s.st).filter (·.guard s) = [transitionTable[k]])
    (h : engineStep s = .next (transitionTable[k].act s)) : s.tabulated :=
  ⟨_, (enabledRows_eq s).trans hr, h⟩

/-- A state with two rows, the second for the hold where the guard of the first, the Engine's, is false. -/
theorem tabulated_of_two {s : State} {a b : Row} (hl : rowsOf s.st = [a, b]) (hb : b.guard s = !a.guard s)
    (hg : s.engineEnabled = a.guard s) (hold : b.act s = s)
    (h : a.guard s = true → engineStep s = .next (a.act s)) : s.tabulated := by
  rw [State.tabulated, enabledRows_eq, hl]
  cases ha : a.guard s with
  | true => exact ⟨a, by simp [hb, ha], h ha⟩
  | false => exact ⟨b, by simp [hb, ha], by rw [hold, engineStep_of_disabled (hg.trans ha)]⟩

theorem tabulated_of_idle {s : State} (hs : s.st = .idle) : s.tabulated := by
  refine tabulated_of_two (a := transitionTable[0]) (b := transitionTable[1]) (by rw [hs]; rfl) rfl
    (by rw [State.engineEnabled, hs]; rfl) rfl fun h => ?_
  obtain ⟨hb, ho⟩ : s.bbusy = false ∧ s.outAvail = true := by simpa [transitionTable] using h
  obtain ⟨b, rest, ho⟩ := outq_of_avail ho
  rw [engineStep_idle_of_cons hs hb ho]
  simp [transitionTable, Row.withPop, ho, State.latch]

/-- DECODE has a row for each opcode, two where the counter matters, and one for the bytes that are no opcode. -/
theorem tabulated_of_decode {s : State} (hs : s.st = .decode) : s.tabulated := by
  have e := (decodeBranches s hs).2
  by_cases h1 : s.op = 0x01#8
  · exact tabulated_of_row 2 (by simp [hs, rowsOf, transitionTable, h1]) (by simp [e, h1, transitionTable, State.strobe])
  by_cases h2 : s.op = 0x02#8
  · exact tabulated_of_row 3 (by simp [hs, rowsOf, transitionTable, h2]) (by simp [e, h2, transitionTable, State.strobe])
  by_cases h3 : s.op = 0x03#8
  · exact tabulated_of_row 4 (by simp [hs, rowsOf, transitionTable, h3]) (by simp [e, h3, transitionTable])
  by_cases h4 : s.op = 0x04#8
  · by_cases hc : s.count = 0#16
    · exact tabulated_of_row 5 (by simp [hs, rowsOf, transitionTable, h4, hc]) (by simp [e, h4, hc, transitionTable])
    · exact tabulated_of_row 6 (by simp [hs, rowsOf, transitionTable, h4, hc]) (by simp [e, h4, hc, transitionTable])
  by_cases h5 : s.op = 0x05#8
  · by_cases hc : s.count = 0#16
    · exact tabulated_of_row 7 (by simp [hs, rowsOf, transitionTable, h5, hc]) (by simp [e, h5, hc, transitionTable])
    · exact tabulated_of_row 8 (by simp [hs, rowsOf, transitionTable, h5, hc]) (by simp [e, h5, hc, transitionTable])
  have hn : s.op.toNat = 0 ∨ 5 < s.op.toNat := by bv_omega
  exact tabulated_of_row 9 (by simpa [hs, rowsOf, transitionTable, h1, h2, h3, h4, h5] using hn)
    (by simp [e, h1, h2, h3, h4, h5, transitionTable])

theorem toNat_countHi (c : Count) : (countHi c).toNat = c.toNat / 256 := by
  simp [countHi, Nat.shiftRight_eq_div_pow]
  omega

theorem toNat_countLo (c : Count) : (countLo c).toNat = c.toNat % 256 := by
  simp [countLo]

theorem tabulated_of_countHigh {s : State} (hs : s.st = .countHigh) : s.tabulated := by
  refine tabulated_of_two (a := transitionTable[10]) (b := transitionTable[11]) (by rw [hs]; rfl) rfl
    (by rw [State.engineEnabled, hs]; rfl) rfl fun h => ?_
  obtain ⟨b, rest, ho⟩ := outq_of_avail h
  have hc : BitVec.ofNat 16 (b.toNat * 256 + s.count.toNat % 256) = withCountHi s.count b := by
    rw [← toNat_countLo, ← countOperand, ofNat_countOperand, withCountHi]
  rw [engineStep_countHigh_of_cons hs ho, State.highTaken, ← hc]
  simp [transitionTable, Row.withPop, ho]

theorem tabulated_of_countLow {s : State} (hs : s.st = .countLow) : s.tabulated := by
  refine tabulated_of_two (a := transitionTable[12]) (b := transitionTable[13]) (by rw [hs]; rfl) rfl
    (by rw [State.engineEnabled, hs]; rfl) rfl fun h => ?_
  obtain ⟨b, rest, ho⟩ := outq_of_avail h
  have hc : BitVec.ofNat 16 (s.count.toNat / 256 * 256 + b.toNat) = countHi s.count ++ b := by
    rw [← toNat_countHi, ← countOperand, ofNat_countOperand]
  rw [engineStep_countLow_of_cons hs ho, ← hc]
  simp [transitionTable, Row.withPop, ho]

theorem engineStep_writeFirst {s : State} (hs : s.st = .writeFirst) : engineStep s = .next (writeFirstStep s) := by
  simp only [engineStep_eq, hs]

theorem engineStep_write {s : State} (hs : s.st = .write) : engineStep s = .next (writeStep s) := by
  simp only [engineStep_eq, hs]

theorem engineStep_report {s : State} (hs : s.st = .report) : engineStep s = .next (reportStep s) := by
  simp only [engineStep_eq, hs]

theorem engineStep_readFirst {s : State} (hs : s.st = .readFirst) : engineStep s = .next (readFirstStep s) := by
  simp only [engineStep_eq, hs]

theorem engineStep_read {s : State} (hs : s.st = .read) : engineStep s = .next (readStep s) := by
  simp only [engineStep_eq, hs]

theorem tabulated_of_writeFirst {s : State} (hs : s.st = .writeFirst) : s.tabulated := by
  refine tabulated_of_two (a := transitionTable[14]) (b := transitionTable[15]) (by rw [hs]; rfl) rfl
    (by rw [State.engineEnabled, hs]; rfl) rfl fun h => ?_
  obtain ⟨b, rest, ho⟩ := outq_of_avail h
  rw [engineStep_writeFirst hs, writeFirstStep_of_cons ho]
  simp [transitionTable, Row.withPop, ho, State.strobe]

/-- State WRITE has a row for each of its cases, with the mode's two where no byte is there. -/
theorem tabulated_of_write {s : State} (hs : s.st = .write) : s.tabulated := by
  have e := engineStep_write hs
  cases hb : s.bbusy with
  | true =>
    exact tabulated_of_row 20 (by simp [hs, rowsOf, transitionTable, hb]) (by rw [e, writeStep_of_busy hb]; rfl)
  | false =>
    cases ha : s.back with
    | false =>
      exact tabulated_of_row 16 (by simp [hs, rowsOf, transitionTable, hb, ha])
        (by rw [e, writeStep_of_nak hb ha]; simp [transitionTable, ha])
    | true =>
      by_cases hc : s.count = 1#16
      · exact tabulated_of_row 16 (by simp [hs, rowsOf, transitionTable, hb, ha, hc])
          (by rw [e, writeStep_of_last hb ha hc]; simp [transitionTable, ha, hc])
      · cases ho : s.outq with
        | cons b rest =>
          exact tabulated_of_row 17 (by simp [hs, rowsOf, transitionTable, hb, ha, hc, State.outAvail, ho])
            (by rw [e, writeStep_of_cons hb ha hc ho]; simp [transitionTable, Row.withPop, ho, State.strobe])
        | nil =>
          cases hm : s.par.starvedWrite with
          | hold =>
            exact tabulated_of_row 18 (by simp [hs, rowsOf, transitionTable, hb, ha, hc, State.outAvail, ho, hm])
              (by rw [e, writeStep_of_nil hb ha hc ho, starvedStep_of_hold hm]; rfl)
          | redecrement =>
            exact tabulated_of_row 19 (by simp [hs, rowsOf, transitionTable, hb, ha, hc, State.outAvail, ho, hm])
              (by rw [e, writeStep_of_nil hb ha hc ho, starvedStep_of_redecrement hm]; rfl)

theorem tabulated_of_report {s : State} (hs : s.st = .report) : s.tabulated := by
  refine tabulated_of_two (a := transitionTable[21]) (b := transitionTable[22]) (by rw [hs]; rfl) rfl
    (by rw [State.engineEnabled, hs]; rfl) rfl fun h => ?_
  rw [engineStep_report hs, reportStep_of_ready h, countLo_eq_ofNat]
  rfl

theorem tabulated_of_readFirst {s : State} (hs : s.st = .readFirst) : s.tabulated :=
  tabulated_of_row 23 (by rw [hs]; rfl) (engineStep_readFirst hs)

/-- READ has a row for the last byte, one for the others, and one for the hold. -/
theorem tabulated_of_read {s : State} (hs : s.st = .read) : s.tabulated := by
  have e := engineStep_read hs
  by_cases hw : s.bbusy = true ∨ s.inReady = false
  · exact tabulated_of_row 26 (by obtain h | h := hw <;> simp [hs, rowsOf, transitionTable, h])
      (by rw [e, readStep_of_wait hw]; rfl)
  · obtain ⟨hb, hr⟩ : s.bbusy = false ∧ s.inReady = true := by simpa using hw
    by_cases hc : s.count = 0#16
    · exact tabulated_of_row 24 (by simp [hs, rowsOf, transitionTable, hb, hr, hc])
        (by rw [e, readStep_of_last hb hr hc]; rfl)
    · exact tabulated_of_row 25 (by simp [hs, rowsOf, transitionTable, hb, hr, hc])
        (by rw [e, readStep_of_more hb hr hc]; simp [transitionTable, State.strobe, bne, beq_eq_decide])

/-- Settles O28: state by state. -/
theorem engineIsTheTransitionTable : Obligations.EngineIsTheTransitionTable := by
  intro s
  change s.tabulated
  cases hs : s.st with
  | idle => exact tabulated_of_idle hs
  | decode => exact tabulated_of_decode hs
  | countHigh => exact tabulated_of_countHigh hs
  | countLow => exact tabulated_of_countLow hs
  | writeFirst => exact tabulated_of_writeFirst hs
  | write => exact tabulated_of_write hs
  | report => exact tabulated_of_report hs
  | readFirst => exact tabulated_of_readFirst hs
  | read => exact tabulated_of_read hs

end Machine
end Sys2Proof
end

section
/-! PROOFS. One Engine step (R104, R107): how little it moves, then O29; when it holds, then O30. -/

namespace Sys2Proof
namespace Machine

/-- The Engine strobes once or leaves the operation in flight alone. -/
theorem EngineMove.flight_cases {s t : State} (h : EngineMove s t) :
    sameFlight s t ∨ (t.bbusy = true ∧ t.bpend ≠ none) := by
  cases h with
  | start | stop | firstByte | nextByte | firstRead | nextRead => exact .inr ⟨rfl, Option.some_ne_none _⟩
  | _ => exact .inl ⟨rfl, rfl⟩

/-- No Engine move pops and pushes. -/
theorem EngineMove.pop_or_push {s t : State} (h : EngineMove s t) : t.outq = s.outq ∨ t.inq = s.inq := by
  cases h with
  | fetch | countHigh | countLow | firstByte | nextByte => exact .inr rfl
  | _ => exact .inl rfl

/-- The Engine pops and strobes in WRITE_FIRST and state WRITE only (log 23). -/
theorem EngineMove.pop_and_strobe {s t : State} (h : EngineMove s t) (ho : t.outq ≠ s.outq) (hf : ¬ sameFlight s t) :
    s.st = .writeFirst ∨ s.st = .write := by
  cases h with
  | firstByte _ _ hs => exact .inl hs
  | nextByte _ _ hs => exact .inr hs
  | fetch | countHigh | countLow => exact absurd ⟨rfl, rfl⟩ hf
  | _ => exact absurd rfl ho

/-- The Engine pushes and strobes in READ only. -/
theorem EngineMove.push_and_strobe {s t : State} (h : EngineMove s t) (hi : t.inq ≠ s.inq) (hf : ¬ sameFlight s t) :
    s.st = .read := by
  cases h with
  | nextRead hs => exact hs
  | report | lastRead => exact absurd ⟨rfl, rfl⟩ hf
  | _ => exact absurd rfl hi

/-- Settles O29: move by move. -/
theorem engineStepLimits : Obligations.EngineStepLimits := by
  intro s t h
  have hm := engineStep_move h
  refine ⟨?pop, hm.inq_cases, hm.flight_cases, hm.pop_or_push, hm.pop_and_strobe, hm.push_and_strobe⟩
  exact hm.outq_cases.imp_right fun ⟨hc, b, ho⟩ => ⟨b, ho, hc⟩

/-- A step that changes the FSM state, the stream position, the counter or the inbound channel is no hold. -/
theorem engineStep_ne_self {s t : State} (h : engineStep s = .next t)
    (hne : t.st ≠ s.st ∨ t.consumed ≠ s.consumed ∨ t.count ≠ s.count ∨ t.inq ≠ s.inq) : engineStep s ≠ .next s := by
  intro he
  cases h.symm.trans he
  simp at hne

theorem engineStep_decode_ne_self {s : State} (hs : s.st = .decode) : engineStep s ≠ .next s := by
  refine engineStep_ne_self ((decodeBranches s hs).2) (.inl ?_)
  split_ifs <;> simp [hs]

/-- In state WRITE the Engine holds while the bus is busy, and starved in mode `hold`. -/
theorem engineStep_write_ne_self {s : State} (hs : s.st = .write) (he : s.engineEnabled = true) :
    engineStep s ≠ .next s := by
  have e := engineStep_write hs
  simp only [State.engineEnabled, hs] at he
  obtain ⟨hb, -⟩ | ⟨hb, ha, w⟩ | ⟨hb, ha, hc, w⟩ | ⟨hb, ha, hc, ⟨b, rest, ho, w⟩ | ⟨ho, hm, -⟩ | ⟨ho, hm, w⟩⟩ :=
    writeStep_cases s
  · simp [hb] at he
  · exact engineStep_ne_self (e.trans (congrArg _ w)) (.inl (by simp [hs]))
  · exact engineStep_ne_self (e.trans (congrArg _ w)) (.inl (by simp [hs]))
  · exact engineStep_ne_self (e.trans (congrArg _ w)) (.inr (.inl (Nat.succ_ne_self _)))
  · simp [hb, ha, ho, hm, State.outAvail] at he
    exact absurd he hc
  · exact engineStep_ne_self (e.trans (congrArg _ w)) (.inr (.inr (.inl (by bv_omega))))

/-- In READ the Engine holds while the bus is busy or the inbound channel is full. -/
theorem engineStep_read_ne_self {s : State} (hs : s.st = .read) (he : s.engineEnabled = true) :
    engineStep s ≠ .next s := by
  have e := engineStep_read hs
  obtain ⟨hb, hr⟩ : s.bbusy = false ∧ s.inReady = true := by simpa [State.engineEnabled, hs] using he
  obtain ⟨hw, -⟩ | ⟨-, -, -, w⟩ | ⟨-, -, -, w⟩ := readStep_cases s
  · simp [hb, hr] at hw
  · exact engineStep_ne_self (e.trans (congrArg _ w)) (.inr (.inr (.inr (by simp))))
  · exact engineStep_ne_self (e.trans (congrArg _ w)) (.inr (.inr (.inr (by simp))))

/-- The Engine moves where its guard holds (R104). -/
theorem engineStep_ne_self_of_enabled {s : State} (he : s.engineEnabled = true) : engineStep s ≠ .next s := by
  cases hs : s.st with
  | idle =>
    obtain ⟨hb, ho⟩ : s.bbusy = false ∧ s.outAvail = true := by simpa [State.engineEnabled, hs] using he
    obtain ⟨b, rest, ho⟩ := outq_of_avail ho
    exact engineStep_ne_self (engineStep_idle_of_cons hs hb ho) (.inl (by simp [hs, State.latch]))
  | decode => exact engineStep_decode_ne_self hs
  | countHigh =>
    obtain ⟨b, rest, ho⟩ := outq_of_avail (s := s) (by simpa only [State.engineEnabled, hs] using he)
    exact engineStep_ne_self (engineStep_countHigh_of_cons hs ho) (.inl (by simp [hs, State.highTaken]))
  | countLow =>
    obtain ⟨b, rest, ho⟩ := outq_of_avail (s := s) (by simpa only [State.engineEnabled, hs] using he)
    exact engineStep_ne_self (engineStep_countLow_of_cons hs ho) (.inl (by simp [hs]))
  | writeFirst =>
    obtain ⟨b, rest, ho⟩ := outq_of_avail (s := s) (by simpa only [State.engineEnabled, hs] using he)
    exact engineStep_ne_self ((engineStep_writeFirst hs).trans (congrArg _ (writeFirstStep_of_cons ho)))
      (.inl (by simp [hs]))
  | write => exact engineStep_write_ne_self hs he
  | report =>
    have hr : s.inReady = true := by simpa only [State.engineEnabled, hs] using he
    exact engineStep_ne_self ((engineStep_report hs).trans (congrArg _ (reportStep_of_ready hr))) (.inl (by simp [hs]))
  | readFirst =>
    exact engineStep_ne_self ((engineStep_readFirst hs).trans (congrArg _ (readFirstStep_eq s))) (.inl (by simp [hs]))
  | read => exact engineStep_read_ne_self hs he

/-- Settles O30: a disabled Engine holds, and an enabled one changes something. -/
theorem engineHoldsExactlyWhenDisabled : Obligations.EngineHoldsExactlyWhenDisabled := by
  refine fun s => ⟨⟨fun h => ?_, engineStep_of_disabled⟩, ?_⟩
  · by_contra he
    exact engineStep_ne_self_of_enabled (eq_true_of_ne_false he) h
  · rintro (hs | hs) <;> rw [State.engineEnabled, hs]

end Machine
end Sys2Proof
end

section
/-! PROOFS. The Bus agent (R29): what a completion does, then O36; no other step touches the Primitive's outputs and the trace, then
O37. -/

namespace Sys2Proof
namespace Machine

theorem busStep_of_flight {s : State} {o : BusOp} (hb : s.bbusy = true) (hp : s.bpend = some o) :
    busStep s = (s.complete o).busDone := by
  simp only [busStep, hb, hp, if_true]

/-- Settles O36: each operation completes in its own way. -/
theorem busCompletes : Obligations.BusCompletes :=
  fun _ hb => ⟨fun hp => busStep_of_flight hb hp, fun hp => busStep_of_flight hb hp,
    fun _ hp => busStep_of_flight hb hp, fun _ hp => busStep_of_flight hb hp⟩

/-- A completion adds one event to the trace; nothing else touches the outputs and the trace. -/
theorem BusMove.outputs_cases {s t : State} (h : BusMove s t) :
    sameBusOutputs s t ∨ (s.bbusy = true ∧ ∃ e, t.blog = s.blog ++ [e]) := by
  cases h with
  | hold | empty => exact .inl ⟨rfl, rfl, rfl⟩
  | start hb | stop hb | write _ hb | read _ hb => exact .inr ⟨hb, _, rfl⟩

/-- Settles O37: only the Bus agent completes an operation. -/
theorem busOutputsChangeOnlyByCompletion : Obligations.BusOutputsChangeOnlyByCompletion := by
  intro s t h
  obtain ⟨_, hm⟩ | ⟨ha, hm⟩ | ⟨_, rfl⟩ := step_cases h
  · exact .inl (engineStep_move hm).frame.1
  · exact (hm ▸ busStep_move s.advance).outputs_cases.imp_right fun h => ⟨ha, h⟩
  · obtain ⟨_, hb, _⟩ := driverStep_frame s.advance
    exact .inl hb

end Machine
end Sys2Proof
end

section
/-! PROOFS. What the agents share (R31, R32, R180): the Driver works on what only it writes and the channels, the Engine on its
registers, the handshake and the channels, the Bus agent on the bus; then O57. -/

namespace Sys2Proof
namespace Machine

/-- The Driver writes no register of the Engine. -/
theorem DriverMove.engine {s t : State} (h : DriverMove s t) : sameEngine s t := by
  cases h <;> exact ⟨rfl, rfl, rfl, rfl⟩

/-- The Bus agent writes no register of the Engine. -/
theorem BusMove.engine {s t : State} (h : BusMove s t) : sameEngine s t := by
  cases h <;> exact ⟨rfl, rfl, rfl, rfl⟩

theorem BusMove.setting {s t : State} (h : BusMove s t) : sameSetting s t := by
  cases h <;> exact ⟨rfl, rfl, rfl⟩

/-- The Driver moves one byte or none. -/
theorem DriverMove.moves_one {s t : State} (h : DriverMove s t) :
    (t.outq = s.outq ∧ t.inq = s.inq) ∨ (t.inq = s.inq ∧ ∃ b, t.outq = s.outq ++ [b]) ∨
    (t.outq = s.outq ∧ ∃ b, s.inq = b :: t.inq) := by
  cases h with
  | hold | refuse => exact .inl ⟨rfl, rfl⟩
  | push => exact .inr (.inl ⟨rfl, _, rfl⟩)
  | pop _ _ b _ _ _ hi | done _ _ b _ _ _ _ hi | again _ _ _ b _ _ _ hi => exact .inr (.inr ⟨rfl, b, hi⟩)

/-- An enabled Driver does the same to its own state and the channels where these and the parameters are the same. -/
theorem driverMove_congr {s u v : State} (hd : sameDriver s u) (ho : u.outq = s.outq) (hi : u.inq = s.inq)
    (hp : u.par = s.par) (hv : driverMove s = some v) :
    ∃ w, driverMove u = some w ∧ sameDriver v w ∧ w.outq = v.outq ∧ w.inq = v.inq := by
  have hv' : driverMove (s.overBus u) = some (v.overBus u) := by rw [driverMove_overBus, hv]; rfl
  obtain ⟨x, k, -, hvx, hw⟩ := driverMove_beside (s := s.overBus u) (t := u) hd hp ⟨rfl, rfl⟩ rfl ⟨hp, rfl, rfl⟩
    (ho ▸ Nat.le_refl _) [] (by rw [List.append_nil]; exact hi) hv'
  have houtq : v.outq = s.outq ++ x := congrArg State.outq hvx
  have hinq : v.inq = s.inq.drop k := congrArg State.inq hvx
  refine ⟨_, hw, ⟨rfl, rfl, rfl, rfl⟩, ?_, ?_⟩
  · rw [houtq, ← ho]; rfl
  · rw [hinq, ← hi]; rfl

theorem driverStep_congr {s u : State} (hd : sameDriver s u) (ho : u.outq = s.outq) (hi : u.inq = s.inq)
    (hp : u.par = s.par) :
    sameDriver (driverStep s) (driverStep u) ∧ (driverStep u).outq = (driverStep s).outq ∧
    (driverStep u).inq = (driverStep s).inq := by
  cases hs : driverMove s with
  | some v =>
    obtain ⟨w, hw, h⟩ := driverMove_congr hd ho hi hp hs
    rwa [driverMove_eq hs, driverMove_eq hw]
  | none =>
    cases hu : driverMove u with
    | some w =>
      obtain ⟨hc, hj, hr, hf⟩ := hd
      obtain ⟨v, hv, -⟩ :=
        driverMove_congr (s := u) (u := s) ⟨hc.symm, hj.symm, hr.symm, hf.symm⟩ ho.symm hi.symm hp.symm hu
      cases hs.symm.trans hv
    | none =>
      rw [driverStep_of_none hs, driverStep_of_none hu]
      exact ⟨hd, ho, hi⟩

/-- The Engine does the same where only what it does not read differs. -/
theorem engineStep_beside_same {s t : State} (u : State) (h : engineStep s = .next t) :
    engineStep (s.beside u [] 0) = .next (t.beside u [] 0) := by
  cases he : s.engineEnabled with
  | false =>
    have he' : (s.beside u [] 0).engineEnabled = false := by
      simpa [State.engineEnabled, State.beside, State.outAvail, State.inReady, State.countIsOne] using he
    cases (engineStep_of_disabled he).symm.trans h
    exact engineStep_of_disabled he'
  | true =>
    by_cases hn : s.par.starvedWrite = .hold ∨ s.starved = false
    · exact engineStep_beside u [] 0 (Nat.zero_le _) he hn h
    · obtain ⟨hm, hs⟩ : s.par.starvedWrite ≠ .hold ∧ s.starved = true := by simpa using hn
      have hm : s.par.starvedWrite = .redecrement := by cases hq : s.par.starvedWrite <;> simp_all
      simp only [State.starved, Bool.and_eq_true, beq_iff_eq, bne_iff_ne, Bool.not_eq_true', List.isEmpty_iff] at hs
      obtain ⟨⟨⟨⟨h1, h2⟩, h3⟩, h4⟩, h5⟩ := hs
      cases (engineStep_starved h1 h2 h3 h4 h5 hm).symm.trans h
      exact engineStep_starved (s := s.beside u [] 0) h1 h2 h3 h4 (by simp [State.beside, h5]) hm

/-- Two states that agree on what the Engine reads differ only in what it does not read. -/
theorem eq_beside {s u : State} (he : sameEngine s u) (hf : sameFlight s u) (ha : u.back = s.back)
    (hb : u.bbyte = s.bbyte) (ho : u.outq = s.outq) (hi : u.inq = s.inq) (hp : u.par = s.par) :
    u = s.beside u [] 0 := by
  obtain ⟨h1, h2, h3, h4⟩ := he
  obtain ⟨h5, h6⟩ := hf
  simp only [State.beside, List.append_nil, List.drop_zero, ← h1, ← h2, ← h3, ← h4, ← h5, ← h6, ← ha, ← hb, ← ho, ← hi,
    ← hp]

/-- The Bus agent does the same where the bus and the devices' answers are the same. -/
theorem busStep_congr {s u : State} (hf : sameFlight s u) (hb : sameBusOutputs s u) (hd : sameDraws s u) :
    sameFlight (busStep s) (busStep u) ∧ sameBusOutputs (busStep s) (busStep u) ∧
    sameDraws (busStep s) (busStep u) := by
  obtain ⟨h1, h2⟩ := hf
  obtain ⟨h3, h4, h5⟩ := hb
  obtain ⟨h6, h7⟩ := hd
  unfold busStep
  rw [h1, h2]
  split_ifs
  · rcases s.bpend with _ | (_ | _ | b | a) <;>
      simp [sameFlight, sameBusOutputs, sameDraws, State.complete, State.busDone, State.drawAck, State.drawByte, h3, h4,
        h5, h6, h7]
  · exact ⟨⟨h1, h2⟩, ⟨h3, h4, h5⟩, h6, h7⟩

/-- Settles O57: for each agent what its moves write, and that it does the same where what it reads is the same. -/
theorem agentsShareOnlyTheChannels : Obligations.AgentsShareOnlyTheChannels := by
  refine ⟨fun s => ?driver, fun s u => driverStep_congr, fun s t h => ?engine, fun s t u he hf ha hb ho hi hp h => ?reads,
    fun s => ?bus, fun s u => busStep_congr⟩
  case driver =>
    obtain ⟨hf, hb, hd, hs⟩ := driverStep_frame s
    have hm := driverStep_move s
    exact ⟨hm.engine, hf, hb, hd, hs, hm.moves_one⟩
  case engine =>
    obtain ⟨hb, hd, hr, hs⟩ := (engineStep_move h).frame
    exact ⟨hd, hb, hr, hs⟩
  case reads =>
    rw [eq_beside he hf ha hb ho hi hp]
    exact ⟨_, engineStep_beside_same u h, ⟨rfl, rfl, rfl, rfl⟩, ⟨rfl, rfl⟩, List.append_nil _, rfl⟩
  case bus =>
    have hm := busStep_move s
    obtain ⟨ho, -, hi⟩ := hm.channels
    exact ⟨hm.driver, hm.engine, ho, hi, hm.setting⟩

end Machine
end Sys2Proof
end

section
/-! PROOFS. A write in progress, in every interleaving (R144), then O40. -/

namespace Sys2Proof
namespace Machine

theorem ackedWrites_snoc (bs : List Byte) (b : Byte) : ackedWrites (bs ++ [b]) = ackedWrites bs ++ [.write b true] := by
  simp [ackedWrites]

/-- A counter below 65536 that has been loaded with a number is 1 where the number is. -/
theorem ofNat_eq_one_iff {m : Nat} (h : m ≤ 65535) : BitVec.ofNat 16 m = 1 ↔ m = 1 := by
  rw [← BitVec.toNat_inj, BitVec.toNat_ofNat, Nat.mod_eq_of_lt (by omega)]
  rfl

theorem ofNat_eq_zero_iff {m : Nat} (h : m ≤ 65535) : BitVec.ofNat 16 m = 0 ↔ m = 0 := by
  rw [← BitVec.toNat_inj, BitVec.toNat_ofNat, Nat.mod_eq_of_lt (by omega)]
  rfl

theorem ofNat_sub_one {m : Nat} (h : 1 ≤ m) : BitVec.ofNat 16 m - 1 = BitVec.ofNat 16 (m - 1) := by
  apply BitVec.eq_of_toNat_eq
  simp
  omega

/-- The low byte of a counter that has been loaded with a number. -/
theorem countLo_ofNat (m : Nat) : countLo (BitVec.ofNat 16 m) = BitVec.ofNat 8 m :=
  BitVec.setWidth_ofNat_of_le (by decide) m

/-- A write in progress is a matter of the Engine's registers and the bus. -/
theorem State.writing.congr {n : Nat} {log : List BusEvent} {c : Nat} {ps : List Byte} {s t : State}
    (h : s.writing n log c ps) (he : sameEngine s t) (hf : sameFlight s t) (hb : sameBusOutputs s t) :
    t.writing n log c ps := by
  obtain ⟨h1, h2, -, h4⟩ := he
  obtain ⟨h5, h6⟩ := hf
  obtain ⟨h7, -, h8⟩ := hb
  simpa only [State.writing, h1, h2, h4, h5, h6, h7, h8] using h

theorem State.written.congr {n : Nat} {log : List BusEvent} {c : Nat} {ps : List Byte} {k : Nat} {s t : State}
    (h : s.written n log c ps k) (he : sameEngine s t) (hf : sameFlight s t) (hb : sameBusOutputs s t) :
    t.written n log c ps k := by
  obtain ⟨h1, h2, -, h4⟩ := he
  obtain ⟨h5, h6⟩ := hf
  obtain ⟨-, -, h8⟩ := hb
  simpa only [State.written, h1, h2, h4, h5, h6, h8] using h

theorem DriverMove.bus {s t : State} (h : DriverMove s t) : sameFlight s t ∧ sameBusOutputs s t := by
  cases h <;> exact ⟨⟨rfl, rfl⟩, rfl, rfl, rfl⟩

/-- While a write is in progress the Engine waits, ends it, or takes the next byte. -/
theorem State.writing.engine {n : Nat} {log : List BusEvent} {c : Nat} {ps : List Byte} {s t : State} (hn : n ≤ 65535)
    (hm : s.par.starvedWrite = .hold ∨ s.starved = false) (h : s.writing n log c ps) (m : EngineMove s t) :
    (t.consumed = s.consumed ∧ (t.writing n log c ps ∨ ∃ k, t.written n log c ps k)) ∨
    (∃ b, s.outq = b :: t.outq ∧ t.writing n log c (ps ++ [b])) := by
  have hw := h
  obtain ⟨bs, b, rfl, hle, hs, hc, hk, hbus⟩ := h
  have idle (hb : s.bbusy = false) : s.bpend = none ∧ s.blog = log ++ ackedWrites bs ++ [.write b s.back] := by
    simpa [hb] using hbus
  have hle' : bs.length + 1 ≤ n := by simpa using hle
  have one : s.count = 1 ↔ n = bs.length + 1 := by
    rw [hc, ofNat_eq_one_iff (by omega)]
    omega
  have dec : s.count - 1 = BitVec.ofNat 16 (n - (bs.length + 1)) := by
    rw [hc, ofNat_sub_one (by omega)]
    rfl
  cases m with
  | hold => exact .inl ⟨rfl, .inl hw⟩
  | nak _ hb ha =>
    obtain ⟨hp, hl⟩ := idle hb
    exact .inl ⟨rfl, .inr ⟨bs.length, rfl, hb, hp, hc, hk, .inr ⟨hle', bs, b, rfl, rfl, by rw [← ha]; exact hl⟩⟩⟩
  | lastAck _ hb ha h1 =>
    obtain ⟨hp, hl⟩ := idle hb
    have hn := one.1 h1
    refine .inl ⟨rfl, .inr ⟨n, rfl, hb, hp, ?_, hk, .inl ⟨rfl, by simp [hn], ?_⟩⟩⟩
    · rw [dec, hn]
    · rw [ackedWrites_snoc, ← List.append_assoc, ← ha]; exact hl
  | nextByte b' rest _ hb ha h1 ho =>
    obtain ⟨hp, hl⟩ := idle hb
    have hlt : n ≠ bs.length + 1 := mt one.2 h1
    refine .inr ⟨b', ho, bs ++ [b], b', rfl, by simp; omega, hs, ?_, ?_, .inl ⟨rfl, rfl, ?_⟩⟩
    · rw [dec]; simp
    · simp [hk, Nat.add_assoc]
    · rw [ackedWrites_snoc, ← List.append_assoc, ← ha]; exact hl
  | starved _ hb ha h1 ho hr => exact absurd (by simpa [hr, State.starved, hs, hb, ha, ho] using hm) h1
  | fetch _ _ h' | start h' | stop h' | operand h' | nothing h' | toWrite h' | toRead h' | countHigh _ _ h'
  | countLow _ _ h' | firstByte _ _ h' | report h' | firstRead h' | lastRead h' | nextRead h' =>
    simp [hs] at h'

/-- The Bus agent completes the byte in flight with the acknowledgement the device gives. -/
theorem State.writing.bus {n : Nat} {log : List BusEvent} {c : Nat} {ps : List Byte} {s t : State}
    (h : s.writing n log c ps) (m : BusMove s t) : t.writing n log c ps := by
  have hw := h
  obtain ⟨bs, b, rfl, hle, hs, hc, hk, ⟨hb, hp, hl⟩ | ⟨hb, hp, hl⟩⟩ := h
  · cases m with
    | hold => exact hw
    | write b' _ hp' =>
      cases hp.symm.trans hp'
      exact ⟨bs, b, rfl, hle, hs, hc, hk, .inr ⟨rfl, rfl, congrArg (· ++ [_]) hl⟩⟩
    | empty _ hp' | start _ hp' | stop _ hp' | read _ _ hp' => simp [hp] at hp'
  · cases m with
    | hold => exact hw
    | empty h' | start h' | stop h' | write _ h' | read _ h' => simp [hb] at h'

/-- At its end the Engine waits, or reports what is left of the counter. -/
theorem State.written.engine {n : Nat} {log : List BusEvent} {c : Nat} {ps : List Byte} {k : Nat} {s t : State}
    (h : s.written n log c ps k) (m : EngineMove s t) :
    t.written n log c ps k ∨
    (t.st = .idle ∧ t.count = BitVec.ofNat 16 (n - k) ∧ t.consumed = s.consumed ∧ t.blog = s.blog ∧
      t.inq = s.inq ++ [BitVec.ofNat 8 (n - k)]) := by
  have hw := h
  obtain ⟨hs, -, -, hc, -, -⟩ := h
  cases m with
  | hold => exact .inl hw
  | report => exact .inr ⟨rfl, hc, rfl, rfl, by rw [hc, countLo_ofNat]⟩
  | fetch _ _ h' | start h' | stop h' | operand h' | nothing h' | toWrite h' | toRead h' | countHigh _ _ h'
  | countLow _ _ h' | firstByte _ _ h' | nak h' | lastAck h' | nextByte _ _ h' | starved h' | firstRead h'
  | lastRead h' | nextRead h' => simp [hs] at h'

/-- At its end the bus is idle. -/
theorem State.written.bus {n : Nat} {log : List BusEvent} {c : Nat} {ps : List Byte} {k : Nat} {s t : State}
    (h : s.written n log c ps k) (m : BusMove s t) : t.written n log c ps k := by
  obtain ⟨_, hb, _⟩ := id h
  cases m with
  | hold => exact h
  | empty h' | start h' | stop h' | write _ h' | read _ h' => simp [hb] at h'

/-- Settles O40: agent by agent. -/
theorem writeSequenceCountsUnacked : Obligations.WriteSequenceCountsUnacked := by
  refine ⟨fun s t b rest ha hs hc ho h => ?begins, fun s t n log c ps hn hm hw h => ?goesOn,
    fun s t n log c ps k hn hw h => ?ends⟩
  case begins =>
    have e : step s = .next (writeFirstStep s.advance) := by
      rw [step, ha]
      exact engineStep_writeFirst (s := s.advance) hs
    rw [e, writeFirstStep_of_cons (s := s.advance) ho] at h
    cases h
    refine ⟨⟨[], b, rfl, ?_, rfl, ?_, rfl, .inl ⟨rfl, rfl, (List.append_nil _).symm⟩⟩, rfl⟩
    · exact Nat.one_le_iff_ne_zero.2 (mt (fun h => BitVec.eq_of_toNat_eq h) hc)
    · simp
  case goesOn =>
    obtain ⟨_, m⟩ | ⟨_, m⟩ | ⟨_, m⟩ := step_move h
    · exact State.writing.engine (s := s.advance) hn hm hw m
    · exact .inl ⟨m.engine.consumed, .inl (State.writing.bus (s := s.advance) hw m)⟩
    · exact .inl ⟨m.engine.consumed, .inl (State.writing.congr (s := s.advance) hw m.engine m.bus.1 m.bus.2)⟩
  case ends =>
    obtain ⟨_, m⟩ | ⟨_, m⟩ | ⟨_, m⟩ := step_move h
    · exact State.written.engine (s := s.advance) hw m
    · exact .inl (State.written.bus (s := s.advance) hw m)
    · exact .inl (State.written.congr (s := s.advance) hw m.engine m.bus.1 m.bus.2)

end Machine
end Sys2Proof
end

section
/-! PROOFS. A read in progress, in every interleaving (R163). -/

namespace Sys2Proof
namespace Machine

theorem ackedReads_snoc (ds : List Byte) (d : Byte) : ackedReads (ds ++ [d]) = ackedReads ds ++ [.read true d] := by
  simp [ackedReads]

/-- A complete read acknowledges all its bytes but the last. -/
theorem readEvents_snoc (ds : List Byte) (d : Byte) : readEvents (ds ++ [d]) = ackedReads ds ++ [.read false d] := by
  induction ds with
  | nil => rfl
  | cons a ds ih =>
    cases ds with
    | nil => rfl
    | cons b ds => exact congrArg (BusEvent.read true a :: ·) ih

/-- A read in progress is a matter of the Engine's registers and the bus. -/
theorem State.reading.congr {n : Nat} {log : List BusEvent} {ds : List Byte} {s t : State} (h : s.reading n log ds)
    (he : sameEngine s t) (hf : sameFlight s t) (hb : sameBusOutputs s t) : t.reading n log ds := by
  obtain ⟨h1, h2, -, -⟩ := he
  obtain ⟨h5, h6⟩ := hf
  obtain ⟨-, h7, h8⟩ := hb
  simpa only [State.reading, h1, h2, h5, h6, h7, h8] using h

/-- While a read is in progress the Engine waits, or pushes the byte received and ends it or requests the next. -/
theorem State.reading.engine {n : Nat} {log : List BusEvent} {ds : List Byte} {s t : State} (hn : n ≤ 65535)
    (h : s.reading n log ds) (m : EngineMove s t) :
    (t.reading n log ds ∧ t.inq = s.inq) ∨
    (∃ d, t.inq = s.inq ++ [d] ∧ (t.reading n log (ds ++ [d]) ∨ t.readDone n log (ds ++ [d]))) := by
  have hw := h
  obtain ⟨hlt, hs, hc, hbus⟩ := h
  have idle (hb : s.bbusy = false) :
      s.bpend = none ∧ s.blog = log ++ ackedReads ds ++ [.read (decide (ds.length + 1 ≠ n)) s.bbyte] := by
    simpa [hb] using hbus
  have zero : s.count = 0 ↔ ds.length + 1 = n := by
    rw [hc, ofNat_eq_zero_iff (by omega)]
    omega
  cases m with
  | hold => exact .inl ⟨hw, rfl⟩
  | lastRead _ hb _ h0 =>
    obtain ⟨hp, hl⟩ := idle hb
    have hlen := zero.1 h0
    refine .inr ⟨s.bbyte, rfl, .inr ⟨by simp [hlen], rfl, h0, hb, hp, ?_⟩⟩
    rw [readEvents_snoc, ← List.append_assoc]
    simpa [hlen] using hl
  | nextRead _ hb _ h0 =>
    obtain ⟨hp, hl⟩ := idle hb
    have hlen : ds.length + 1 ≠ n := mt zero.2 h0
    have one : s.count = 1 ↔ ds.length + 2 = n := by
      rw [hc, ofNat_eq_one_iff (by omega)]
      omega
    refine .inr ⟨s.bbyte, rfl, .inl ⟨by simp; omega, hs, ?_, .inl ⟨rfl, ?_, ?_⟩⟩⟩
    · show s.count - 1 = _
      rw [hc, ofNat_sub_one (by omega), List.length_append]
      rfl
    · simp only [one, List.length_append, List.length_singleton, ne_eq, decide_not]
    · rw [ackedReads_snoc, ← List.append_assoc]
      simpa [hlen] using hl
  | fetch _ _ h' | start h' | stop h' | operand h' | nothing h' | toWrite h' | toRead h' | countHigh _ _ h'
  | countLow _ _ h' | firstByte _ _ h' | nak h' | lastAck h' | nextByte _ _ h' | starved h' | report h' | firstRead h' =>
    simp [hs] at h'

/-- The Bus agent completes the read in flight with the byte the device sends. -/
theorem State.reading.bus {n : Nat} {log : List BusEvent} {ds : List Byte} {s t : State} (h : s.reading n log ds)
    (m : BusMove s t) : t.reading n log ds := by
  have hw := h
  obtain ⟨hlt, hs, hc, ⟨hb, hp, hl⟩ | ⟨hb, hp, hl⟩⟩ := h
  · cases m with
    | hold => exact hw
    | read a _ hp' =>
      cases hp.symm.trans hp'
      exact ⟨hlt, hs, hc, .inr ⟨rfl, rfl, congrArg (· ++ [_]) hl⟩⟩
    | empty _ hp' | start _ hp' | stop _ hp' | write _ _ hp' => simp [hp] at hp'
  · cases m with
    | hold => exact hw
    | empty h' | start h' | stop h' | write _ h' | read _ h' => simp [hb] at h'

/-- READ_FIRST begins a read, and every step of every agent goes on with it. -/
theorem reading_of_readFirst {s t : State} (ha : s.turn = .engine) (hs : s.st = .readFirst) (hc : s.count ≠ 0)
    (h : step s = .next t) : t.reading s.count.toNat s.blog [] ∧ t.inq = s.inq := by
  have e : step s = .next (readFirstStep s.advance) := by
    rw [step, ha]
    exact engineStep_readFirst (s := s.advance) hs
  rw [e, readFirstStep_eq] at h
  cases h
  have hpos : 0 < s.count.toNat := Nat.pos_of_ne_zero (mt (fun h => BitVec.eq_of_toNat_eq h) hc)
  have one : s.count = 1 ↔ 1 = s.count.toNat := by
    rw [eq_comm (a := 1), ← BitVec.toNat_inj]
    rfl
  refine ⟨⟨hpos, rfl, ?_, .inl ⟨rfl, ?_, (List.append_nil _).symm⟩⟩, rfl⟩
  · show s.count - 1 = BitVec.ofNat 16 (s.count.toNat - 1)
    rw [← ofNat_sub_one hpos]
    simp
  · simp only [advance_count, one, List.length_nil, Nat.zero_add, ne_eq, decide_not]

theorem step_reading {s t : State} {n : Nat} {log : List BusEvent} {ds : List Byte} (hn : n ≤ 65535)
    (hr : s.reading n log ds) (h : step s = .next t) :
    (t.reading n log ds ∧ (t.inq = s.inq ∨ s.turn = .driver)) ∨
    (∃ d, t.inq = s.inq ++ [d] ∧ (t.reading n log (ds ++ [d]) ∨ t.readDone n log (ds ++ [d]))) := by
  obtain ⟨_, m⟩ | ⟨_, m⟩ | ⟨ha, m⟩ := step_move h
  · exact (State.reading.engine (s := s.advance) hn hr m).imp_left fun ⟨h, hi⟩ => ⟨h, .inl hi⟩
  · obtain ⟨_, _, hi⟩ := m.channels
    exact .inl ⟨State.reading.bus (s := s.advance) hr m, .inl hi⟩
  · exact .inl ⟨State.reading.congr (s := s.advance) hr m.engine m.bus.1 m.bus.2, .inr ha⟩

end Machine
end Sys2Proof
end

section
/-! PROOFS. A write under the schedule where each bus operation completes at once (R144), then O41 and O42. -/

namespace Sys2Proof
namespace Machine

theorem busThenEngine_add (m k : Nat) : busThenEngine (m + k) = busThenEngine m ++ busThenEngine k := by
  induction m with
  | zero => simp [busThenEngine]
  | succ m ih => simp [Nat.succ_add, busThenEngine, ih]

/-- Byte `b` is being written: in flight, with the Engine in state WRITE. -/
def State.sending (s : State) (b : Byte) : Prop := s.st = .write ∧ s.bbusy = true ∧ s.bpend = some (.write b)

/-- What a Bus agent's turn leaves when the device answers the byte `b` in flight with `a`. -/
def State.answered (s : State) (b : Byte) (a : Bool) (as : List Bool) : State :=
  { s with back := a, blog := s.blog ++ [.write b a], acks := as, bbusy := false, bpend := none }

theorem runTurns_answer {l : List Agent} {s : State} {b : Byte} {a : Bool} {as : List Bool} (h : s.sending b)
    (ha : s.acks = a :: as) : runTurns (.bus :: l) s = runTurns l ((s.seen l).answered b a as) := by
  obtain ⟨-, hb, hp⟩ := h
  rw [runTurns_bus_of_flight hb hp]
  simp [State.complete, State.busDone, State.answered, State.drawAck, State.seen, ha]

/-- After `bs` of its bytes have been acknowledged a write sends `b`, and `rest` is left of the stream. -/
def State.sent (s : State) (bs : List Byte) (b : Byte) (rest : List Byte) (as : List Bool) : State :=
  { s with outq := rest, consumed := s.consumed + bs.length, count := s.count - BitVec.ofNat 16 bs.length,
           bpend := some (.write b), blog := s.blog ++ ackedWrites bs, back := !bs.isEmpty || s.back, acks := as,
           tick := s.tick + 2 * bs.length }

/-- What the next two turns leave of a byte in flight that is acknowledged, when `p` is sent after it (R142). -/
def State.sentOne (s : State) (q p : Byte) (out : List Byte) (as : List Bool) : State :=
  { s with outq := out, consumed := s.consumed + 1, count := s.count - 1, bpend := some (.write p), back := true,
           blog := s.blog ++ [.write q true], acks := as, tick := s.tick + 2 }

theorem runTurns_sendNext {l : List Agent} {as : List Bool} {out : List Byte} {p q : Byte} {s : State}
    (h : s.sending q) (ho : s.outq = p :: out) (ha : s.acks = true :: as) (hc : s.count ≠ 1) :
    runTurns (.bus :: .engine :: l) s = runTurns l (s.sentOne q p out as) := by
  obtain ⟨hs, hb, _⟩ := id h
  have next := (engineStep_write (s := ((s.seen (.engine :: l)).answered q true as).seen l) hs).trans
    (congrArg _ (writeStep_of_cons rfl rfl hc ho))
  rw [runTurns_answer h ha, runTurns_engine next rfl]
  simp only [State.sentOne, ← hb]
  rfl

/-- Two turns for each byte acknowledged: its completion, and the Engine's step that sends the next byte. -/
theorem runTurns_acked (l : List Agent) (as : List Bool) (rest : List Byte) (b : Byte) (bs : List Byte) :
    ∀ (q : Byte) (s : State), s.sending q → q :: s.outq = bs ++ b :: rest →
      s.acks = List.replicate bs.length true ++ as → bs.length < s.count.toNat →
      runTurns (busThenEngine bs.length ++ l) s = runTurns l (s.sent bs b rest as) := by
  induction bs with
  | nil =>
    intro q s ⟨_, _, hp⟩ ho ha _
    obtain ⟨rfl, hout⟩ := List.cons.inj ho
    rw [List.length_nil, List.replicate_zero, List.nil_append] at ha
    simp [busThenEngine, State.sent, ackedWrites, ← ha, ← hp, ← show s.outq = rest from hout]
  | cons c bs ih =>
    intro q s hq ho ha hc
    obtain ⟨hst, hbusy, _⟩ := id hq
    obtain ⟨rfl, hout⟩ := List.cons.inj ho
    obtain ⟨p, out, hp⟩ : ∃ p out, s.outq = p :: out := List.exists_cons_of_ne_nil (by simp [hout])
    have ha : s.acks = true :: (List.replicate bs.length true ++ as) := ha
    have hout : s.outq = bs ++ b :: rest := hout
    rw [List.length_cons] at hc
    have hc1 : s.count ≠ 1 := fun h => by simp [h] at hc
    have hc2 : bs.length < (s.count - 1).toNat := by bv_omega
    rw [List.length_cons, busThenEngine, List.cons_append, List.cons_append, runTurns_sendNext hq hp ha hc1,
      ih p (s.sentOne q p out _) ⟨hst, hbusy, rfl⟩ (hp.symm.trans hout) rfl hc2]
    congr 1
    have hcount : s.count - 1 - BitVec.ofNat 16 bs.length = s.count - BitVec.ofNat 16 (bs.length + 1) := by bv_omega
    have htick : 2 + 2 * bs.length = 2 * bs.length + 2 := Nat.add_comm ..
    simpa [State.sent, State.sentOne, ackedWrites, Nat.add_assoc, Nat.mul_add, Nat.add_comm 1] using ⟨hcount, htick⟩

/-- What DECODE and WRITE_FIRST leave of a write whose first byte is `q` (R140, R141). -/
def State.begun (s : State) (q : Byte) (out : List Byte) : State :=
  { s with st := .write, outq := out, consumed := s.consumed + 1, bbusy := true, bpend := some (.write q),
           tick := s.tick + 2 }

/-- DECODE of WRITE with a count that is not 0 goes to WRITE_FIRST (R140). -/
theorem engineStep_decode_of_write {s : State} (hs : s.st = .decode) (hop : s.op = 0x04) (hc : s.count ≠ 0) :
    engineStep s = .next { s with st := .writeFirst } := by
  rw [engineStep_decode_of_encode (i := .write) hs (by simp) hop]
  exact (execWrite_of_decode hs).trans (by rw [if_neg hc])

theorem runTurns_begin {l : List Agent} {s : State} {q : Byte} {out : List Byte} (hs : s.st = .decode)
    (hop : s.op = 0x04) (hc : s.count ≠ 0) (ho : s.outq = q :: out) :
    runTurns (.engine :: .engine :: l) s = runTurns l (s.begun q out) := by
  have decoded := engineStep_decode_of_write (s := s.seen (.engine :: l)) hs hop hc
  have first := (engineStep_writeFirst (s := ({ s.seen (.engine :: l) with st := .writeFirst } : State).seen l) rfl).trans
    (congrArg _ (writeFirstStep_of_cons ho))
  rw [runTurns_engine decoded rfl, runTurns_engine first rfl]
  rfl

/-- The last byte of a write is answered with `a`, and the Engine reports what is left of the counter (R142, R143). -/
theorem runTurns_end {s : State} {b : Byte} {a : Bool} {as : List Bool} (h : s.sending b) (ha : s.acks = a :: as)
    (hc : a = true → s.count = 1) (hr : s.inReady = true) :
    runTurns [.bus, .engine, .engine] s =
      .next { s.answered b a as with
        st := .idle, count := if a then 0 else s.count,
        inq := s.inq ++ [countLo (if a then 0 else s.count)], turns := [], tick := s.tick + 3 } := by
  let s1 := ((s.seen [.engine, .engine]).answered b a as).seen [.engine]
  have ended : engineStep s1 = .next { s1 with count := if a then 0 else s.count, st := .report } := by
    refine (engineStep_write (s := s1) h.1).trans ?_
    cases a with
    | true => exact congrArg _ (writeStep_of_last rfl rfl (hc rfl))
    | false => exact congrArg _ (writeStep_of_nak rfl rfl)
  let s2 : State := { s1 with count := if a then 0 else s.count, st := .report }
  have reported : engineStep (s2.seen []) = _ :=
    (engineStep_report rfl).trans (congrArg _ (reportStep_of_ready (s := s2.seen []) hr))
  rw [runTurns_answer h ha, runTurns_engine ended rfl, runTurns_engine reported rfl, runTurns_nil]
  rfl

/-- A whole write: its bytes up to `b` are acknowledged, and `b`, the last one taken, is answered with `a`. -/
theorem runTurns_write {s : State} {bs rest : List Byte} {b : Byte} {a : Bool} {as : List Bool} (hs : s.st = .decode)
    (hop : s.op = 0x04) (hb : s.bbusy = false) (hp : s.bpend = none) (hc : bs.length < s.count.toNat)
    (ho : s.outq = bs ++ b :: rest) (ha : s.acks = List.replicate bs.length true ++ a :: as) (hr : s.inReady = true)
    (hlast : a = true → s.count.toNat = bs.length + 1) :
    runTurns ([.engine, .engine] ++ busThenEngine (bs.length + 1) ++ [.engine]) s =
      .next { s with st := .idle, count := if a then 0 else s.count - BitVec.ofNat 16 bs.length, outq := rest,
                     consumed := s.consumed + (bs.length + 1),
                     inq := s.inq ++ [countLo (if a then 0 else s.count - BitVec.ofNat 16 bs.length)],
                     blog := s.blog ++ ackedWrites bs ++ [.write b a], back := a, acks := as, turns := [],
                     tick := s.tick + (2 * bs.length + 5) } := by
  obtain ⟨q, out, hq⟩ : ∃ q out, s.outq = q :: out := List.exists_cons_of_ne_nil (by simp [ho])
  have hc0 : s.count ≠ 0 := fun h => by simp [h] at hc
  have hc1 : a = true → s.count - BitVec.ofNat 16 bs.length = 1 := fun h => by
    have := hlast h
    bv_omega
  have turns : [.engine, .engine] ++ busThenEngine (bs.length + 1) ++ [.engine] =
      .engine :: .engine :: (busThenEngine bs.length ++ [.bus, .engine, .engine]) := by
    rw [busThenEngine_add]
    simp [busThenEngine]
  rw [turns, runTurns_begin hs hop hc0 hq,
    runTurns_acked _ (a :: as) rest b bs q (s.begun q out) ⟨rfl, rfl, rfl⟩ (hq.symm.trans ho) ha hc,
    runTurns_end (s := (s.begun q out).sent bs b rest (a :: as)) ⟨rfl, rfl, rfl⟩ rfl hc1 hr]
  have hk : s.consumed + 1 + bs.length = s.consumed + (bs.length + 1) := by omega
  have ht : s.tick + 2 + 2 * bs.length + 3 = s.tick + (2 * bs.length + 5) := by omega
  simp [State.answered, State.sent, State.begun, hb, hp, hk, ht]

/-- Settles O41: all bytes but the last are acknowledged, and so is the last. -/
theorem fullyAcknowledgedWrite : Obligations.FullyAcknowledgedWrite := by
  intro s ps rest as hs hop hb hc hlen ho ha hr hp
  obtain ⟨bs, b, rfl⟩ : ∃ bs b, ps = bs ++ [b] := by
    refine ⟨ps.dropLast, ps.getLast ?_, (List.dropLast_append_getLast _).symm⟩
    rintro rfl
    exact hc (BitVec.eq_of_toNat_eq hlen.symm)
  rw [List.length_append, List.length_singleton] at hlen ha ⊢
  rw [List.replicate_succ', List.append_assoc] at ha
  rw [runTurns_write hs hop hb hp (by omega) (by simpa using ho) ha hr fun _ => hlen.symm]
  have ht : 2 * (bs.length + 1) + 3 = 2 * bs.length + 5 := by omega
  have h0 : countLo 0#16 = 0#8 := rfl
  simp [ackedWrites_snoc, ht, h0]

/-- Settles O42: the first byte not acknowledged is the last one taken. -/
theorem writeCutShortByNak : Obligations.WriteCutShortByNak := by
  intro s ps rest q as hs hop hb hlen ho ha hr hp
  have hcount : s.count - BitVec.ofNat 16 ps.length = BitVec.ofNat 16 (s.count.toNat - ps.length) := by bv_omega
  rw [runTurns_write hs hop hb hp hlen ho ha hr (by simp), ← countLo_ofNat, ← hcount]
  rfl

end Machine
end Sys2Proof
end

section
/-! PROOFS. A read under the schedule where each bus operation completes at once (R163), then O43. -/

namespace Sys2Proof
namespace Machine

/-- A byte is being read, to be acknowledged with `a`: in flight, with the Engine in READ. -/
def State.receiving (s : State) (a : Bool) : Prop := s.st = .read ∧ s.bbusy = true ∧ s.bpend = some (.read a)

/-- What a Bus agent's turn leaves when the device sends `d`. -/
def State.received (s : State) (a : Bool) (d : Byte) (more : List Byte) : State :=
  { s with bbyte := d, blog := s.blog ++ [.read a d], reads := more, bbusy := false, bpend := none }

theorem runTurns_receive {l : List Agent} {s : State} {a : Bool} {d : Byte} {more : List Byte} (h : s.receiving a)
    (hr : s.reads = d :: more) : runTurns (.bus :: l) s = runTurns l ((s.seen l).received a d more) := by
  obtain ⟨-, hb, hp⟩ := h
  rw [runTurns_bus_of_flight hb hp]
  simp [State.complete, State.busDone, State.received, State.drawByte, State.seen, hr]

/-- What the next two turns leave of a read in flight that is acknowledged: its byte is pushed and one more requested, with
acknowledgement `a` (R162). -/
def State.receivedOne (s : State) (d : Byte) (a : Bool) (more : List Byte) : State :=
  { s with inq := s.inq ++ [d], count := s.count - 1, bpend := some (.read a), bbyte := d,
           blog := s.blog ++ [.read true d], reads := more, tick := s.tick + 2 }

theorem runTurns_receiveNext {l : List Agent} {s : State} {d : Byte} {more : List Byte} (h : s.receiving true)
    (hr : s.reads = d :: more) (hi : s.inReady = true) (hc : s.count ≠ 0) :
    runTurns (.bus :: .engine :: l) s = runTurns l (s.receivedOne d (decide (s.count ≠ 1)) more) := by
  obtain ⟨hs, hb, _⟩ := id h
  have next := (engineStep_read (s := ((s.seen (.engine :: l)).received true d more).seen l) hs).trans
    (congrArg _ (readStep_of_more rfl hi hc))
  rw [runTurns_receive h hr, runTurns_engine next rfl]
  simp only [State.receivedOne, ← hb]
  rfl

/-- What the last two turns of a read leave: its byte is pushed, and the Engine is in IDLE (R162). -/
theorem runTurns_receiveLast {s : State} {d : Byte} {more : List Byte} (h : s.receiving false) (hr : s.reads = d :: more)
    (hi : s.inReady = true) (hc : s.count = 0) :
    runTurns [.bus, .engine] s =
      .next { s.received false d more with
        st := .idle, inq := s.inq ++ [d], turns := [], tick := s.tick + 2 } := by
  have last := (engineStep_read (s := ((s.seen [.engine]).received false d more).seen []) h.1).trans
    (congrArg _ (readStep_of_last rfl hi hc))
  rw [runTurns_receive h hr, runTurns_engine last rfl, runTurns_nil]
  rfl

/-- Two turns for each byte: its completion, and the Engine's step that pushes it. -/
theorem runTurns_reads (more : List Byte) (ds : List Byte) :
    ∀ (d : Byte) (s : State), s.receiving (decide (ds.length ≠ 0)) → s.count.toNat = ds.length →
      s.reads = d :: ds ++ more → (∀ m, s.par.inDepth = some m → s.inq.length + (ds.length + 1) ≤ m) →
      runTurns (busThenEngine (ds.length + 1)) s =
        .next { s with st := .idle, count := 0, inq := s.inq ++ d :: ds, bbyte := (d :: ds).getLastD 0,
                       blog := s.blog ++ readEvents (d :: ds), reads := more, bbusy := false, bpend := none,
                       turns := [], tick := s.tick + 2 * (ds.length + 1) } := by
  induction ds with
  | nil =>
    intro d s h hc hr hroom
    have hi : s.inReady = true := (hasRoom_iff _ _).2 hroom
    have hc : s.count = 0 := BitVec.eq_of_toNat_eq hc
    refine (runTurns_receiveLast h hr hi hc).trans ?_
    simp [State.received, readEvents, hc]
  | cons e ds ih =>
    intro d s h hc hr hroom
    obtain ⟨hst, hbusy, _⟩ := id h
    have hi : s.inReady = true := (hasRoom_iff _ _).2 fun m hm => by have := hroom m hm; omega
    have hr : s.reads = d :: (e :: ds ++ more) := hr
    rw [List.length_cons] at hc hroom
    have hc0 : s.count ≠ 0 := fun h => by simp [h] at hc
    have one : s.count = 1 ↔ ds.length = 0 := by bv_omega
    have last : decide (s.count ≠ 1) = decide (ds.length ≠ 0) := by simp only [ne_eq, one]
    rw [List.length_cons, busThenEngine, runTurns_receiveNext h hr hi hc0, last,
      ih e (s.receivedOne d _ _) ⟨hst, hbusy, rfl⟩ (by simp [State.receivedOne]; bv_omega) rfl
        (fun m hm => by have := hroom m hm; simp [State.receivedOne]; omega)]
    have ht : s.tick + 2 + 2 * (ds.length + 1) = s.tick + 2 * (ds.length + 1 + 1) := by omega
    simp [State.receivedOne, readEvents, ht]

/-- DECODE of READ with a count that is not 0 goes to READ_FIRST (R160). -/
theorem engineStep_decode_of_read {s : State} (hs : s.st = .decode) (hop : s.op = 0x05) (hc : s.count ≠ 0) :
    engineStep s = .next { s with st := .readFirst } := by
  rw [engineStep_decode_of_encode (i := .read) hs (by simp) hop]
  exact (execRead_of_decode hs).trans (by rw [if_neg hc])

/-- What DECODE and READ_FIRST leave of a read (R160, R161). -/
def State.requested (s : State) : State :=
  { s with st := .read, count := s.count - 1, bbusy := true, bpend := some (.read (!decide (s.count = 1))),
           tick := s.tick + 2 }

theorem runTurns_request {l : List Agent} {s : State} (hs : s.st = .decode) (hop : s.op = 0x05) (hc : s.count ≠ 0) :
    runTurns (.engine :: .engine :: l) s = runTurns l s.requested := by
  have decoded := engineStep_decode_of_read (s := s.seen (.engine :: l)) hs hop hc
  have first := (engineStep_readFirst (s := ({ s.seen (.engine :: l) with st := .readFirst } : State).seen l) rfl).trans
    (congrArg _ (readFirstStep_eq _))
  rw [runTurns_engine decoded rfl, runTurns_engine first rfl]
  rfl

/-- Settles O43: READ_FIRST begins a read, every step of every agent goes on with it, and byte by byte it runs to its end. -/
theorem readSequence : Obligations.ReadSequence := by
  refine ⟨fun s t => reading_of_readFirst, fun s t n log ds => step_reading,
    fun s d ds more hs hop hb hp hlen hr hroom => ?_⟩
  rw [List.length_cons] at hlen hroom ⊢
  have hc : s.count ≠ 0 := fun h => by simp [h] at hlen
  have one : s.count = 1 ↔ ds.length = 0 := by bv_omega
  have last : (!decide (s.count = 1)) = decide (ds.length ≠ 0) := by simp only [one, ne_eq, decide_not]
  have hc1 : (s.count - 1).toNat = ds.length := by bv_omega
  rw [List.cons_append, List.cons_append, List.nil_append, runTurns_request hs hop hc,
    runTurns_reads more ds d s.requested ⟨rfl, rfl, by rw [← last]; rfl⟩ hc1 hr hroom]
  have ht : s.tick + 2 + 2 * (ds.length + 1) = s.tick + (2 * (ds.length + 1) + 2) := by omega
  simp [State.requested, hb, hp, ht]

end Machine
end Sys2Proof
end

section
/-! PROOFS. Ways through a call (R182 to R187), one agent's step at a time: where the system stands in a call, and what one step
of each agent makes of that. -/

namespace Sys2Proof
namespace Machine

/-! ## Ways -/

/-- Some steps of agents that can move lead to a state with `P`. -/
def Leads (s : State) (P : State → Prop) : Prop := ∃ n t, Path n s t ∧ P t

theorem Leads.here {s : State} {P : State → Prop} (h : P s) : Leads s P := ⟨0, s, .nil s, h⟩

theorem Leads.trans {s : State} {P Q : State → Prop} (h : Leads s P) (k : ∀ t, P t → Leads t Q) : Leads s Q := by
  obtain ⟨m, t, hm, hp⟩ := h
  obtain ⟨n, u, hn, hq⟩ := k t hp
  exact ⟨m + n, u, hm.trans hn, hq⟩

/-- A step that changes something is one of an agent that can move. -/
theorem Leads.engine {s t : State} {P : State → Prop} (h : engineStep s = .next t)
    (hne : t.st ≠ s.st ∨ t.consumed ≠ s.consumed ∨ t.count ≠ s.count ∨ t.inq ≠ s.inq) (hp : Leads t P) : Leads s P := by
  have he : s.enabled .engine = true := by
    by_contra hd
    exact engineStep_ne_self h hne (engineStep_of_disabled (eq_false_of_ne_true hd))
  obtain ⟨n, u, hn, hu⟩ := hp
  exact ⟨n + 1, u, .cons .engine he (by rwa [after_engine h]), hu⟩

theorem Leads.bus {s : State} {o : BusOp} {P : State → Prop} (hb : s.bbusy = true) (ho : s.bpend = some o)
    (hp : Leads (s.complete o).busDone P) : Leads s P := by
  obtain ⟨n, u, hn, hu⟩ := hp
  exact ⟨n + 1, u, .cons .bus hb (by rwa [after_bus, busStep_of_flight hb ho]), hu⟩

theorem Leads.driver {s t : State} {P : State → Prop} (h : driverMove s = some t) (hp : Leads t P) : Leads s P := by
  obtain ⟨n, u, hn, hu⟩ := hp
  exact ⟨n + 1, u, .cons .driver (by simp [State.enabled, h]) (by rwa [after_driver, driverMove_eq h]), hu⟩

/-! ## Where the system stands in a call -/

/-- A call and its transaction, the calls the host still has waiting, and the results before it. -/
structure Errand where
  par : Params
  op : Op
  stage : Stage
  calls : List Call
  results : List Result

/-- The transaction the call is at. -/
def Errand.txn (K : Errand) : Txn := (Job.mk K.op K.stage 0 []).txn K.par

/-- The Engine's state and counter, the operation in flight, the bus, the inbound channel, and the inbound bytes that the
Driver has popped. -/
structure Scene where
  st : FsmState
  flight : Option BusOp
  view : BusView
  count : Nat
  inq : List Byte
  got : List Byte

/-- The call is going on, or about to be taken up, in that scene, with the bytes `q` in the outbound channel and the bytes `l`
still to be pushed. -/
structure State.stands (s : State) (K : Errand) (c : Scene) (q l : List Byte) : Prop where
  par : s.par = K.par
  results : s.results = K.results
  refusal : s.refusal = none
  run : ∃ pos, Running s ⟨K.op, K.stage, pos, c.got⟩ K.calls ∧ K.txn.bytes.drop pos = l
  st : s.st = c.st
  bbusy : s.bbusy = c.flight.isSome
  bpend : s.bpend = c.flight
  view : s.busView = c.view
  count : s.count = BitVec.ofNat 16 c.count
  outq : s.outq = q
  inq : s.inq = c.inq

/-- As `State.stands`, with `rest` to come for the Engine, wherever it is. -/
def State.on (s : State) (K : Errand) (c : Scene) (rest : List Byte) : Prop :=
  ∃ q l, q ++ l = rest ∧ s.stands K c q l

variable {K : Errand} {c : Scene} {q l rest : List Byte} {s t : State}

theorem State.stands.on (h : s.stands K c q l) : s.on K c (q ++ l) := ⟨q, l, rfl, h⟩

theorem Running.congr {j : Job} {calls : List Call} (h : Running s j calls) (hd : sameDriver s t) :
    Running t j calls := by
  obtain ⟨hc, hj, -, -⟩ := hd
  cases h with
  | going j h => exact hc ▸ .going j (hj.trans h)
  | starting _ _ _ h1 h2 h3 => exact .starting _ _ _ (hj.trans h1) (hc.trans h2) h3

/-! ## The Engine's steps -/

/-- An Engine step goes on with the call as it stands. -/
theorem State.stands.engine (h : s.stands K c q l) (e : engineStep s = .next t) (c' : Scene) {q' : List Byte}
    (hg : c'.got = c.got) (hv : c'.view = c.view) (hs : t.st = c'.st) (hb : t.bbusy = c'.flight.isSome)
    (hp : t.bpend = c'.flight) (hc : t.count = BitVec.ofNat 16 c'.count) (ho : t.outq = q') (hi : t.inq = c'.inq) :
    t.stands K c' q' l := by
  obtain ⟨⟨-, -, hl⟩, hd, ⟨ha, hr⟩, hpar, -⟩ := (engineStep_move e).frame
  obtain ⟨pos, hrun, hpos⟩ := h.run
  refine ⟨hpar.trans h.par, hd.results.trans h.results, hd.refusal.trans h.refusal, ⟨pos, ?_, hpos⟩, hs, hb, hp,
    ?_, hc, ho, hi⟩
  · rw [hg]; exact hrun.congr hd
  · rw [hv, ← h.view]; simp only [State.busView, hl, ha, hr]

/-! ## The Bus agent's steps -/

/-- The acknowledgement the device gives next. -/
def BusView.ack (v : BusView) (b : Byte) : Bool := v.acks.headD (Config.ackOracle v.log b)

/-- The byte the device sends next. -/
def BusView.byte (v : BusView) (a : Bool) : Byte := v.reads.headD (Config.readOracle v.log a)

/-- The bus after an operation has completed. -/
def BusView.after (v : BusView) : BusOp → BusView
  | .start => v.condition .start
  | .stop => v.condition .stop
  | .write b => { v with log := v.log ++ [.write b (v.ack b)], acks := v.acks.tail }
  | .read a => { v with log := v.log ++ [.read a (v.byte a)], reads := v.reads.tail }

theorem busView_complete (s : State) (o : BusOp) : (s.complete o).busDone.busView = s.busView.after o := by
  cases o <;> rfl

/-- A completion goes on with the call as it stands. -/
theorem State.stands.complete {o : BusOp} (h : s.stands K c q l) (ho : c.flight = some o) :
    (s.complete o).busDone.stands K { c with flight := none, view := c.view.after o } q l := by
  obtain ⟨pos, hrun, hpos⟩ := h.run
  have hd : sameDriver s (s.complete o).busDone := by cases o <;> exact ⟨rfl, rfl, rfl, rfl⟩
  have he : sameEngine s (s.complete o).busDone := by cases o <;> exact ⟨rfl, rfl, rfl, rfl⟩
  have hch : (s.complete o).busDone.par = s.par ∧ (s.complete o).busDone.outq = s.outq ∧
      (s.complete o).busDone.inq = s.inq := by cases o <;> exact ⟨rfl, rfl, rfl⟩
  obtain ⟨hp, hq, hi⟩ := hch
  exact ⟨hp.trans h.par, hd.results.trans h.results, hd.refusal.trans h.refusal, ⟨pos, hrun.congr hd, hpos⟩,
    he.1.trans h.st, rfl, rfl, by rw [busView_complete, h.view], he.count.trans h.count, hq.trans h.outq,
    hi.trans h.inq⟩

theorem Leads.complete {o : BusOp} {P : State → Prop} (h : s.stands K c q l) (ho : c.flight = some o)
    (hp : Leads (s.complete o).busDone P) : Leads s P :=
  .bus (h.bbusy.trans (by rw [ho]; rfl)) (h.bpend.trans ho) hp

/-! ## The Driver's steps -/

theorem wf_hasRoom {d : Option Nat} (h : (d != some 0) = true) : hasRoom d [] = true := by
  rw [hasRoom_iff]
  rintro n rfl
  cases n with
  | zero => simp at h
  | succ n => exact Nat.succ_pos n

theorem outRoom_of_wf (hwf : s.par.wf = true) (ho : s.outq = []) : s.outRoom = true := by
  rw [State.outRoom, ho]
  exact wf_hasRoom (by simp only [Params.wf, Bool.and_eq_true] at hwf; exact hwf.1)

theorem inReady_of_wf (hwf : s.par.wf = true) (hi : s.inq = []) : s.inReady = true := by
  rw [State.inReady, hi]
  exact wf_hasRoom (by simp only [Params.wf, Bool.and_eq_true] at hwf; exact hwf.2)

/-- The call in progress, or the one to be taken up, moves. -/
theorem driverMove_of_running {j : Job} {calls : List Call} (h : Running s j calls) :
    driverMove s = jobMove { s with calls := calls } j := by
  cases h with
  | going j hj => exact driverMove_of_job hj
  | starting c rest o hj hc ha => exact driverMove_of_admitted hj hc ha

/-- With the outbound channel empty the Driver pushes the next byte. -/
theorem leads_push {b : Byte} (hwf : K.par.wf = true) (h : s.stands K c [] (b :: l)) :
    Leads s fun t => t.stands K c [b] l ∧ sameEngine s t ∧ sameBusOutputs s t := by
  obtain ⟨pos, hrun, hpos⟩ := h.run
  have hb : K.txn.bytes[pos]? = some b := by
    have := congrArg List.head? hpos
    rwa [List.head?_drop] at this
  have hl : K.txn.bytes.drop (pos + 1) = l := by
    have := congrArg List.tail hpos
    rwa [List.tail_drop] at this
  have hroom := outRoom_of_wf (h.par ▸ hwf) h.outq
  have hm := driverMove_of_running hrun
  rw [jobMove_push (s := { s with calls := K.calls }) (b := b)
    (by rw [show State.par { s with calls := K.calls } = K.par from h.par]; exact hb) hroom] at hm
  refine .driver hm (.here ⟨?_, ⟨rfl, rfl, rfl, rfl⟩, rfl, rfl, rfl⟩)
  exact ⟨h.par, h.results, h.refusal, ⟨pos + 1, .going _ rfl, hl⟩, h.st, h.bbusy, h.bpend, h.view, h.count,
    congrArg (· ++ [b]) h.outq, h.inq⟩

/-- The next byte comes to the head of the outbound channel. -/
theorem leads_head {b : Byte} (hwf : K.par.wf = true) (h : s.on K c (b :: rest)) :
    Leads s fun t => (∃ q l, q ++ l = rest ∧ t.stands K c (b :: q) l) ∧ sameEngine s t ∧ sameBusOutputs s t := by
  obtain ⟨q, l, hql, h⟩ := h
  cases q with
  | nil =>
    cases hql
    exact (leads_push hwf h).trans fun t ⟨ht, he⟩ => .here ⟨⟨[], rest, rfl, ht⟩, he⟩
  | cons b' q =>
    obtain ⟨rfl, hrest⟩ := List.cons.inj hql
    exact .here ⟨⟨q, l, hrest, h⟩, ⟨rfl, rfl, rfl, rfl⟩, rfl, rfl, rfl⟩

/-- A call with nothing left to push is in progress. -/
theorem State.stands.job (h : s.stands K c q []) :
    ∃ pos, s.job = some ⟨K.op, K.stage, pos, c.got⟩ ∧ s.calls = K.calls ∧ K.txn.bytes.length ≤ pos := by
  obtain ⟨pos, hrun, hpos⟩ := h.run
  have hle := List.drop_eq_nil_iff.1 hpos
  generalize hj : Job.mk K.op K.stage pos c.got = j, hk : K.calls = calls at hrun
  cases hrun with
  | going _ h => exact ⟨pos, h.trans (congrArg some hj.symm), rfl, hle⟩
  | starting _ _ o =>
    have hpos : pos = 0 := congrArg Job.pos hj
    have := head_bytes K.txn
    rw [hpos, Nat.le_zero, List.length_eq_zero_iff] at hle
    simp [hle] at this

end Machine
end Sys2Proof
end

section
/-! PROOFS. The instructions in a call: what the Engine makes of the next bytes of the stream, with the channels of any
capacity. -/

namespace Sys2Proof
namespace Machine

variable {K : Errand} {c : Scene} {q l rest i got : List Byte} {v : BusView} {m : Nat} {b : Byte} {s t : State}

/-- The Engine is in IDLE with the bus idle. -/
def Scene.idle (v : BusView) (m : Nat) (i got : List Byte) : Scene := ⟨.idle, none, v, m, i, got⟩

/-- IDLE fetches the next byte. -/
theorem leads_fetch (hwf : K.par.wf = true) (h : s.on K (.idle v m i got) (b :: rest)) :
    Leads s fun t => t.on K ⟨.decode, none, v, m, i, got⟩ rest ∧ t.op = b := by
  refine (leads_head hwf h).trans fun t ⟨⟨q, l, hql, ht⟩, _⟩ => ?_
  have e := engineStep_idle_of_cons ht.st ht.bbusy ht.outq
  refine .engine e (.inl (by rw [ht.st]; simp [State.latch, Scene.idle])) (.here ⟨⟨q, l, hql, ?_⟩, rfl⟩)
  exact ht.engine e _ rfl rfl rfl ht.bbusy ht.bpend ht.count rfl ht.inq

/-- An Engine step that changes the FSM state, and at most the counter and the operation in flight. -/
theorem leads_goto {c c' : Scene} {P : State → Prop} (h : s.on K c rest) (e : engineStep s = .next t)
    (hne : c'.st ≠ c.st) (hg : c'.got = c.got) (hv : c'.view = c.view) (hi : c'.inq = c.inq) (hs : t.st = c'.st)
    (hb : t.bbusy = c'.flight.isSome) (hp : t.bpend = c'.flight) (hc : t.count = BitVec.ofNat 16 c'.count)
    (ho : t.outq = s.outq) (hin : t.inq = s.inq) (hP : t.on K c' rest → Leads t P) : Leads s P := by
  obtain ⟨q, l, hql, h⟩ := h
  refine .engine e (.inl (by rw [hs, h.st]; exact hne)) (hP ⟨q, l, hql, ?_⟩)
  exact h.engine e c' hg hv hs hb hp hc (ho.trans h.outq) ((hin.trans h.inq).trans hi.symm)

/-- The operation in flight completes. -/
theorem leads_complete {o : BusOp} (h : s.on K c rest) (ho : c.flight = some o) :
    Leads s (·.on K { c with flight := none, view := c.view.after o } rest) := by
  obtain ⟨q, l, hql, h⟩ := h
  exact .complete h ho (.here ⟨q, l, hql, h.complete ho⟩)

/-- A bus condition is fetched, strobed and completed (R121, R122). -/
theorem leads_condition {o : BusOp}
    (hd : ∀ t : State, t.st = .decode → t.op = b → engineStep t = .next ((t.strobe o).goto .idle))
    (hwf : K.par.wf = true) (h : s.on K (.idle v m i got) (b :: rest)) :
    Leads s (·.on K (.idle (v.after o) m i got) rest) := by
  refine (leads_fetch hwf h).trans fun t ⟨ht, hop⟩ => ?_
  obtain ⟨_, _, _, st⟩ := id ht
  exact leads_goto (c' := ⟨.idle, some o, v, m, i, got⟩) ht (hd t st.st hop) (by simp) rfl rfl rfl rfl rfl rfl st.count
    rfl rfl fun hu => leads_complete hu rfl

theorem leads_start (hwf : K.par.wf = true) (h : s.on K (.idle v m i got) (0x01 :: rest)) :
    Leads s (·.on K (.idle (v.condition .start) m i got) rest) :=
  leads_condition (o := .start) (fun _ hs ho => engineStep_decode_of_start hs ho) hwf h

theorem leads_stop (hwf : K.par.wf = true) (h : s.on K (.idle v m i got) (0x02 :: rest)) :
    Leads s (·.on K (.idle (v.condition .stop) m i got) rest) :=
  leads_condition (o := .stop) (fun _ hs ho => engineStep_decode_of_encode (i := .stop) hs (by simp) ho) hwf h

/-- `[STOP]` (R90). -/
theorem leads_finish (stop : Bool) (hwf : K.par.wf = true)
    (h : s.on K (.idle v m i got) ((if stop then [0x02] else []) ++ rest)) :
    Leads s (·.on K (.idle (v.finish stop) m i got) rest) := by
  cases stop with
  | true => exact leads_stop hwf h
  | false => exact .here h

/-- Bytes that are no opcode have no effect (R103). -/
theorem leads_ignored (hwf : K.par.wf = true) (bs : List Byte) (hb : ∀ b ∈ bs, ignoredByte b) :
    ∀ {s}, s.on K (.idle v m i got) (bs ++ rest) → Leads s (·.on K (.idle v m i got) rest) := by
  induction bs with
  | nil => exact fun h => .here h
  | cons b bs ih =>
    intro s h
    refine (leads_fetch hwf h).trans fun t ⟨ht, hop⟩ => ?_
    obtain ⟨_, _, _, st⟩ := id ht
    have hi : ignoredByte t.op := hop ▸ hb b (List.mem_cons_self ..)
    exact leads_goto (c' := .idle v m i got) ht (engineStep_decode_of_ignoredByte st.st hi) (by simp [Scene.idle]) rfl
      rfl rfl rfl st.bbusy st.bpend st.count rfl rfl (ih fun b h => hb b (List.mem_cons_of_mem _ h))

/-- SET-COUNT loads its operand (R130 to R132). -/
theorem leads_setCount {hi lo : Byte} (hwf : K.par.wf = true)
    (h : s.on K (.idle v m i got) (0x03 :: hi :: lo :: rest)) :
    Leads s (·.on K (.idle v (countOperand hi lo) i got) rest) := by
  refine (leads_fetch hwf h).trans fun t ⟨ht, hop⟩ => ?_
  obtain ⟨_, _, _, st⟩ := id ht
  refine leads_goto (c' := ⟨.countHigh, none, v, m, i, got⟩) ht (engineStep_decode_of_setCount st.st hop) (by simp) rfl
    rfl rfl rfl st.bbusy st.bpend st.count rfl rfl fun hu => ?_
  refine (leads_head hwf hu).trans fun u ⟨⟨q, l, hql, hu⟩, _⟩ => ?_
  have eh := engineStep_countHigh_of_cons hu.st hu.outq
  have hh := hu.engine eh ⟨.countLow, none, v, (withCountHi u.count hi).toNat, i, got⟩ rfl rfl rfl hu.bbusy hu.bpend
    (by simp [State.highTaken]) rfl hu.inq
  refine .engine eh (.inl (by rw [hu.st]; simp [State.highTaken])) ?_
  refine (leads_head hwf (hql ▸ hh.on)).trans fun w ⟨⟨q, l, hql, hw⟩, he, _⟩ => ?_
  have el := engineStep_countLow_of_cons hw.st hw.outq
  have hc : countHi w.count = hi := by rw [he.count]; exact countHi_withCountHi u.count hi
  refine .engine el (.inl (by rw [hw.st]; simp)) (.here ⟨q, l, hql, ?_⟩)
  exact hw.engine el (.idle v (countOperand hi lo) i got) rfl rfl rfl hw.bbusy hw.bpend
    (by rw [hc]; exact (ofNat_countOperand hi lo).symm) rfl hw.inq

/-! ## WRITE -/

theorem BusView.write_cons (v : BusView) (b : Byte) (bs : List Byte) :
    v.write (b :: bs) =
      if v.ack b then (((v.after (.write b)).write bs).1 + 1, ((v.after (.write b)).write bs).2)
      else (0, v.after (.write b)) := rfl

/-- REPORT pushes the low byte of the counter (R143). -/
theorem leads_report (hwf : K.par.wf = true) (h : s.on K ⟨.report, none, v, m, [], got⟩ rest) :
    Leads s (·.on K (.idle v m [BitVec.ofNat 8 m] got) rest) := by
  obtain ⟨q, l, hql, h⟩ := h
  have e := (engineStep_report h.st).trans
    (congrArg _ (reportStep_of_ready (inReady_of_wf (h.par ▸ hwf) h.inq)))
  refine .engine e (.inl (by rw [h.st]; simp)) (.here ⟨q, l, hql, ?_⟩)
  exact h.engine e (.idle v m [BitVec.ofNat 8 m] got) rfl rfl rfl h.bbusy h.bpend h.count h.outq
    (by rw [h.count, h.inq, countLo_ofNat]; rfl)

/-- A byte that is not acknowledged ends a write (R142). -/
theorem leads_nak (hwf : K.par.wf = true) (h : s.on K ⟨.write, none, v, m, [], got⟩ rest) (ha : s.back = false) :
    Leads s (·.on K (.idle v m [BitVec.ofNat 8 m] got) rest) := by
  obtain ⟨_, _, _, st⟩ := id h
  exact leads_goto (c' := ⟨.report, none, v, m, [], got⟩) h
    ((engineStep_write st.st).trans (congrArg _ (writeStep_of_nak st.bbusy ha))) (by simp) rfl rfl rfl rfl st.bbusy
    st.bpend st.count rfl rfl (leads_report hwf)

/-- The last byte, acknowledged, ends a write (R142). -/
theorem leads_lastAck (hwf : K.par.wf = true) (h : s.on K ⟨.write, none, v, 1, [], got⟩ rest) (ha : s.back = true) :
    Leads s (·.on K (.idle v 0 [BitVec.ofNat 8 0] got) rest) := by
  obtain ⟨_, _, _, st⟩ := id h
  exact leads_goto (c' := ⟨.report, none, v, 0, [], got⟩) h
    ((engineStep_write st.st).trans (congrArg _ (writeStep_of_last st.bbusy ha st.count))) (by simp) rfl rfl rfl rfl
    st.bbusy st.bpend rfl rfl rfl (leads_report hwf)

theorem back_complete (s : State) (b : Byte) : (s.complete (.write b)).busDone.back = s.busView.ack b := rfl

/-- From the byte in flight on, a write takes its bytes up to the first one not acknowledged, and reports. The next byte is
always pushed before the last one completes, so that the Engine is never starved. -/
theorem leads_sending (hwf : K.par.wf = true) (bs : List Byte) :
    ∀ {b v s}, bs.length + 1 ≤ 65535 → s.on K ⟨.write, some (.write b), v, bs.length + 1, [], got⟩ (bs ++ rest) →
      Leads s (·.on K (.idle (v.write (b :: bs)).2 (bs.length + 1 - (v.write (b :: bs)).1)
        [BitVec.ofNat 8 (bs.length + 1 - (v.write (b :: bs)).1)] got) (bs.drop (v.write (b :: bs)).1 ++ rest)) := by
  induction bs with
  | nil =>
    intro b v s hlen h
    obtain ⟨q, l, hql, h⟩ := h
    refine .complete h rfl ?_
    have ht := h.complete rfl
    have hback : (s.complete (.write b)).busDone.back = v.ack b := by rw [back_complete, h.view]
    rw [BusView.write_cons]
    cases ha : v.ack b with
    | true => exact leads_lastAck hwf ⟨q, l, hql, ht⟩ (hback.trans ha)
    | false => exact leads_nak hwf ⟨q, l, hql, ht⟩ (hback.trans ha)
  | cons b' bs ih =>
    intro b v s hlen h
    refine (leads_head hwf h).trans fun s ⟨⟨q, l, hql, h⟩, _⟩ => ?_
    refine .complete h rfl ?_
    have ht := h.complete rfl
    have hback : (s.complete (.write b)).busDone.back = v.ack b := by rw [back_complete, h.view]
    rw [BusView.write_cons]
    cases ha : v.ack b with
    | false => exact leads_nak hwf ⟨b' :: q, l, congrArg (b' :: ·) hql, ht⟩ (hback.trans ha)
    | true =>
      rw [List.length_cons] at hlen ht
      have hc : (s.complete (.write b)).busDone.count ≠ 1 := by
        rw [ht.count, ne_eq, ofNat_eq_one_iff hlen]
        omega
      have e := (engineStep_write ht.st).trans
        (congrArg _ (writeStep_of_cons ht.bbusy (hback.trans ha) hc ht.outq))
      refine .engine e (.inr (.inl (Nat.succ_ne_self _))) ?_
      have hu := ht.engine e ⟨.write, some (.write b'), v.after (.write b), bs.length + 1, [], got⟩ rfl rfl ht.st rfl rfl
        (by rw [ht.count]; exact ofNat_sub_one (Nat.succ_pos _)) rfl ht.inq
      have := ih (by omega) ⟨q, l, hql, hu⟩
      simpa only [if_true, List.length_cons, Nat.add_sub_add_right, List.drop_succ_cons] using this

/-- WRITE, with its bytes after it in the stream (R140 to R144). -/
theorem leads_write (hwf : K.par.wf = true) {bs : List Byte} (hlen : bs.length + 1 ≤ 65535)
    (h : s.on K (.idle v (bs.length + 1) [] got) (0x04 :: b :: (bs ++ rest))) :
    Leads s (·.on K (.idle (v.write (b :: bs)).2 (bs.length + 1 - (v.write (b :: bs)).1)
        [BitVec.ofNat 8 (bs.length + 1 - (v.write (b :: bs)).1)] got) (bs.drop (v.write (b :: bs)).1 ++ rest)) := by
  refine (leads_fetch hwf h).trans fun t ⟨ht, hop⟩ => ?_
  obtain ⟨_, _, _, st⟩ := id ht
  have hc : t.count ≠ 0 := by
    rw [st.count, ne_eq, ofNat_eq_zero_iff hlen]
    omega
  refine leads_goto (c' := ⟨.writeFirst, none, v, bs.length + 1, [], got⟩) ht (engineStep_decode_of_write st.st hop hc)
    (by simp) rfl rfl rfl rfl st.bbusy st.bpend st.count rfl rfl fun hu => ?_
  refine (leads_head hwf hu).trans fun u ⟨⟨q, l, hql, hu⟩, _⟩ => ?_
  have e := (engineStep_writeFirst hu.st).trans (congrArg _ (writeFirstStep_of_cons hu.outq))
  refine .engine e (.inl (by rw [hu.st]; simp)) (leads_sending hwf bs hlen ⟨q, l, hql, ?_⟩)
  exact hu.engine e ⟨.write, some (.write b), v, bs.length + 1, [], got⟩ rfl rfl rfl rfl rfl hu.count rfl hu.inq

/-! ## READ -/

theorem BusView.read_succ (v : BusView) (n : Nat) :
    v.read (n + 1) =
      (v.byte (n != 0) :: ((v.after (.read (n != 0))).read n).1, ((v.after (.read (n != 0))).read n).2) := rfl

/-- The acknowledgement of a read with `m` to come after it. -/
theorem ack_eq (hm : m + 1 ≤ 65535) : (!decide (BitVec.ofNat 16 (m + 1) = 1)) = (m != 0) := by
  simp only [ofNat_eq_one_iff hm, Nat.add_eq_right]
  exact Bool.eq_iff_iff.2 (by simp)

/-- READ with a count of 0 has no effect (R160). -/
theorem leads_read_zero (hwf : K.par.wf = true) (h : s.on K (.idle v 0 i got) (0x05 :: rest)) :
    Leads s (·.on K (.idle v 0 i got) rest) := by
  refine (leads_fetch hwf h).trans fun t ⟨ht, hop⟩ => ?_
  obtain ⟨_, _, _, st⟩ := id ht
  exact leads_goto (c' := .idle v 0 i got) ht (engineStep_decode_of_zero_count st.st (.inr hop) st.count)
    (by simp [Scene.idle]) rfl rfl rfl rfl st.bbusy st.bpend st.count rfl rfl fun h => .here h

/-- READ requests its first byte (R160, R161). -/
theorem leads_request (hwf : K.par.wf = true) (hm : m + 1 ≤ 65535) (h : s.on K (.idle v (m + 1) i got) (0x05 :: rest)) :
    Leads s (·.on K ⟨.read, some (.read (m != 0)), v, m, i, got⟩ rest) := by
  refine (leads_fetch hwf h).trans fun t ⟨ht, hop⟩ => ?_
  obtain ⟨_, _, _, st⟩ := id ht
  have hc : t.count ≠ 0 := by
    rw [st.count, ne_eq, ofNat_eq_zero_iff hm]
    omega
  refine leads_goto (c' := ⟨.readFirst, none, v, m + 1, i, got⟩) ht (engineStep_decode_of_read st.st hop hc) (by simp)
    rfl rfl rfl rfl st.bbusy st.bpend st.count rfl rfl fun hu => ?_
  obtain ⟨_, _, _, su⟩ := id hu
  have hcu := su.count
  exact leads_goto (c' := ⟨.read, some (.read (m != 0)), v, m, i, got⟩) hu
    ((engineStep_readFirst su.st).trans (congrArg _ (readFirstStep_eq _))) (by simp) rfl rfl rfl rfl rfl
    (by rw [← ack_eq hm, ← hcu]) (by rw [hcu]; exact ofNat_sub_one (Nat.succ_pos _)) rfl rfl fun h => .here h

/-- At most one byte is left for the Engine: the Driver pushes it, if it has not. -/
theorem leads_pushed (hwf : K.par.wf = true) (h : s.on K c rest) (hlen : rest.length ≤ 1) :
    Leads s (·.stands K c rest []) := by
  obtain ⟨q, l, rfl, h⟩ := h
  match q, l with
  | [], [] => exact .here h
  | [], [b] => exact (leads_push hwf h).trans fun t ht => .here ht.1
  | [b], [] => exact .here h

/-- A pop that is not the last one of its transaction. -/
theorem afterPop_more {j : Job} {g : List Byte} (hm : g.length < (j.txn s.par).inbound) :
    afterPop s j g = { s with job := some { j with got := g } } :=
  if_pos hm

/-- With all bytes pushed the Driver pops an inbound byte. -/
theorem leads_pop {x : Byte} (h : s.stands K c q []) (hi : c.inq = x :: i)
    (hm : c.got.length + 1 < K.txn.inbound) :
    Leads s fun t => t.stands K { c with inq := i, got := c.got ++ [x] } q [] ∧ sameEngine s t ∧ sameBusOutputs s t := by
  obtain ⟨pos, hj, hc, hle⟩ := h.job
  have htxn : (Job.mk K.op K.stage pos c.got).txn s.par = K.txn := by rw [h.par]; rfl
  have hd := (driverMove_of_job hj).trans (jobMove_pop (by rw [htxn]; exact hle) (h.inq.trans hi))
  rw [afterPop_more (by rw [show State.par { s with inq := i } = s.par from rfl, htxn]; simpa using hm)] at hd
  refine .driver hd (.here ⟨?_, ⟨rfl, rfl, rfl, rfl⟩, rfl, rfl, rfl⟩)
  exact ⟨h.par, h.results, h.refusal, ⟨pos, hc ▸ .going _ rfl, List.drop_eq_nil_iff.2 hle⟩, h.st, h.bbusy, h.bpend,
    h.view, h.count, h.outq, rfl⟩

theorem bbyte_complete (s : State) (a : Bool) : (s.complete (.read a)).busDone.bbyte = s.busView.byte a := rfl

/-- From the read in flight on, each byte is popped by the Driver before the next one is pushed. -/
theorem leads_receiving (hwf : K.par.wf = true) (m : Nat) :
    ∀ {x v got s}, m + 1 ≤ 65535 → K.txn.inbound = got.length + 1 + (m + 1) →
      s.stands K ⟨.read, some (.read (m != 0)), v, m, [x], got⟩ q [] →
      Leads s fun t => ∃ y got', got' ++ [y] = got ++ x :: (v.read (m + 1)).1 ∧
        t.stands K (.idle (v.read (m + 1)).2 0 [y] got') q [] := by
  induction m with
  | zero =>
    intro x v got s hm hin h
    refine .complete h rfl ?_
    refine (leads_pop (h.complete rfl) rfl (by rw [hin]; simp)).trans fun t ⟨ht, _, _, hbyte, _⟩ => ?_
    have e := (engineStep_read ht.st).trans
      (congrArg _ (readStep_of_last ht.bbusy (inReady_of_wf (ht.par ▸ hwf) ht.inq) ht.count))
    refine .engine e (.inl (by rw [ht.st]; simp)) (.here ⟨v.byte false, got ++ [x], ?_, ?_⟩)
    · rw [show (v.read (0 + 1)).1 = [v.byte false] from rfl, List.append_assoc]
      rfl
    · refine ht.engine e (.idle _ 0 [_] _) rfl rfl rfl ht.bbusy ht.bpend ht.count ht.outq ?_
      rw [hbyte, bbyte_complete, h.view, ht.inq]
      rfl
  | succ m ih =>
    intro x v got s hm hin h
    refine .complete h rfl ?_
    refine (leads_pop (h.complete rfl) rfl (by rw [hin]; simp)).trans fun t ⟨ht, _, _, hbyte, _⟩ => ?_
    have hcount : t.count = BitVec.ofNat 16 (m + 1) := ht.count
    have hc : t.count ≠ 0 := by
      rw [hcount, ne_eq, ofNat_eq_zero_iff (by omega)]
      omega
    have e := (engineStep_read ht.st).trans
      (congrArg _ (readStep_of_more ht.bbusy (inReady_of_wf (ht.par ▸ hwf) ht.inq) hc))
    have hack : decide (t.count ≠ 1) = (m != 0) := by
      rw [hcount, ← ack_eq (by omega)]
      exact decide_not
    refine .engine e (.inr (.inr (.inr (by simp)))) ?_
    have hu := ht.engine e ⟨.read, some (.read (m != 0)), v.after (.read true), m, [v.byte true], got ++ [x]⟩ rfl rfl
      ht.st rfl (congrArg (fun a => some (BusOp.read a)) hack) (by rw [hcount]; exact ofNat_sub_one (Nat.succ_pos _))
      ht.outq (by rw [hbyte, bbyte_complete, h.view, ht.inq]; rfl)
    refine (ih (by omega) (by simp [hin]; omega) hu).trans fun w ⟨y, got', hy, hw⟩ => .here ⟨y, got', ?_, hw⟩
    rw [hy, List.append_assoc]
    rfl

end Machine
end Sys2Proof
end

section
/-! PROOFS. Calls in step (R183 to R187, R194), one transaction and one call after the other; then O60. -/

namespace Sys2Proof
namespace Machine

variable {K : Errand} {l rest i got : List Byte} {v : BusView} {m : Nat} {s t : State}

/-! ## Transactions -/

theorem countOperand_ofNat {n : Nat} (h : n ≤ 65535) :
    countOperand (BitVec.ofNat 8 (n / 256)) (BitVec.ofNat 8 n) = n := by
  simp only [countOperand, BitVec.toNat_ofNat]
  omega

/-- The operand bytes of READ's SET-COUNT (R184) give its size. -/
theorem countOperand_extract (n : Count) : countOperand (n.extractLsb' 8 8) (n.extractLsb' 0 8) = n.toNat := by
  rw [← countHi_eq_extract, ← countLo_eq_extract, countOperand, toNat_countHi, toNat_countLo]
  omega

/-- A write transaction whose leftover bytes are no opcodes: its status byte is the low byte of what was not acknowledged
(R182, R183, R145). -/
theorem leads_writeTxn {a : Addr} {d : List Byte} {stop : Bool} (hwf : K.par.wf = true) (hlen : d.length ≤ 65534)
    (hleft : ∀ b ∈ d.drop (v.writeTxn a d stop).1, ignoredByte b)
    (h : s.on K (.idle v m [] []) (Txn.write a d stop).bytes) :
    Leads s fun t => ∃ m', t.stands K (.idle (v.writeTxn a d stop).2 m'
      [BitVec.ofNat 8 (1 + d.length - (v.writeTxn a d stop).1)] []) [] [] := by
  rw [bytes_write] at h
  simp only [List.cons_append, List.nil_append] at h
  refine (leads_start hwf h).trans fun t h => (leads_setCount hwf h).trans fun t h => ?_
  rw [countOperand_ofNat (by omega), Nat.add_comm] at h
  refine (leads_write hwf (by omega) h).trans fun t h => ?_
  refine (leads_ignored hwf _ hleft h).trans fun t h => ?_
  refine (leads_finish stop hwf (by rwa [List.append_nil])).trans fun t h => ?_
  refine (leads_pushed hwf h (by simp)).trans fun t h => .here ⟨d.length + 1 - (v.writeTxn a d stop).1, ?_⟩
  rw [Nat.add_comm 1]
  exact h

/-- The bytes of a read transaction after its address byte (R184): the status byte is popped before the first data byte is
pushed, and the last one stays in the inbound channel. -/
theorem leads_readData {n : Nat} {st : Byte} {stop : Bool} (hwf : K.par.wf = true) (hn : n ≤ 65535)
    (hin : K.txn.inbound = 1 + n) (h : s.on K (.idle v n [st] []) (0x05 :: if stop then [0x02] else [])) :
    Leads s fun t => ∃ y got', got' ++ [y] = st :: (v.read n).1 ∧
      t.on K (.idle (v.read n).2 0 [y] got') (if stop then [0x02] else []) := by
  cases n with
  | zero => exact (leads_read_zero hwf h).trans fun t h => .here ⟨st, [], rfl, h⟩
  | succ n =>
    refine (leads_request hwf hn h).trans fun t h => ?_
    refine (leads_pushed hwf h (by split <;> simp)).trans fun t h => ?_
    refine (leads_receiving hwf n hn (by rw [hin]; simp) h).trans fun t ⟨y, got', hy, h⟩ => ?_
    exact .here ⟨y, got', hy, _, _, List.append_nil _, h⟩

/-- The status byte of a write of one byte. -/
theorem status_of_one (v : BusView) (b : Byte) :
    BitVec.ofNat 8 (1 - (v.write [b]).1) = if (v.write [b]).1 == 1 then 0 else 1 := by
  rw [BusView.write_cons]
  cases v.ack b <;> rfl

/-- A read transaction: the status byte and the bytes read come in, the last one still in the channel (R184, R185). -/
theorem leads_readTxn {a : Addr} {n : Count} {stop : Bool} (hwf : K.par.wf = true) (hin : K.txn.inbound = 1 + n.toNat)
    (h : s.on K (.idle v m [] []) (Txn.read a n stop).bytes) :
    Leads s fun t => ∃ m' y got',
      got' ++ [y] = (if (v.readTxn a n.toNat stop).1.1 then 0 else 1) :: (v.readTxn a n.toNat stop).1.2 ∧
      t.stands K (.idle (v.readTxn a n.toNat stop).2 m' [y] got') [] [] := by
  rw [bytes_read] at h
  simp only [List.cons_append, List.nil_append] at h
  refine (leads_start hwf h).trans fun t h => (leads_setCount hwf h).trans fun t h => ?_
  refine (leads_write hwf (bs := []) (by simp) h).trans fun t h => ?_
  rw [List.drop_nil, List.nil_append] at h
  refine (leads_setCount hwf h).trans fun t h => ?_
  rw [countOperand_extract] at h
  refine (leads_readData hwf (by omega) hin h).trans fun t ⟨y, got', hy, h⟩ => ?_
  refine (leads_finish stop hwf (by rwa [List.append_nil])).trans fun t h => ?_
  refine (leads_pushed hwf h (by simp)).trans fun t h => .here ⟨_, y, got', ?_, h⟩
  rw [hy]
  exact congrArg (· :: _) (status_of_one _ _)

/-! ## Calls -/

/-- The response interpreter, at the transaction the call is at. -/
def Errand.finish (K : Errand) (bs : List Byte) : Finish := (Job.mk K.op K.stage 0 []).finish bs

/-- Between calls: a clean entry, with the calls of the host, the results so far and the bus. -/
structure State.ready (s : State) (p : Params) (calls : List Call) (results : List Result) (v : BusView) : Prop where
  clean : s.cleanEntry
  bpend : s.bpend = none
  par : s.par = p
  calls : s.calls = calls
  results : s.results = results
  view : s.busView = v

/-- An admitted call is about to be taken up. -/
theorem State.ready.on {p : Params} {c : Call} {cs : List Call} {rs : List Result} {o : Op}
    (h : s.ready p (c :: cs) rs v) (ha : admitCall c = .ok o) :
    s.on ⟨p, o, .first, cs, rs⟩ (.idle v s.count.toNat [] []) (Errand.mk p o .first cs rs).txn.bytes := by
  obtain ⟨hst, hq, hi, hb, hj, hr⟩ := h.clean
  exact ⟨[], _, rfl, h.par, h.results, hr, ⟨0, .starting c cs o hj h.calls ha, rfl⟩, hst, hb, h.bpend, h.view,
      by simp [Scene.idle],
    hq, hi⟩

theorem afterPop_done {j : Job} {g : List Byte} {r : Result} (hn : (j.txn s.par).inbound ≤ g.length)
    (hf : j.finish g = .done r) : afterPop s j g = { s with job := none, results := s.results ++ [r] } := by
  rw [afterPop, if_neg (Nat.not_lt.2 hn), hf]

theorem afterPop_again {j j' : Job} {g : List Byte} (hn : (j.txn s.par).inbound ≤ g.length)
    (hf : j.finish g = .again j') : afterPop s j g = { s with job := some j' } := by
  rw [afterPop, if_neg (Nat.not_lt.2 hn), hf]

/-- The last pop of a transaction takes the inbound byte that is there. -/
theorem driverMove_last {y : Byte} (h : s.stands K (.idle v m [y] got) [] []) (hin : K.txn.inbound ≤ got.length + 1) :
    ∃ pos, s.calls = K.calls ∧
      ((Job.mk K.op K.stage pos got).txn s.par).inbound ≤ (got ++ [y]).length ∧
      driverMove s = some (afterPop { s with inq := [] } ⟨K.op, K.stage, pos, got⟩ (got ++ [y])) := by
  obtain ⟨pos, hj, hc, hle⟩ := h.job
  have htxn : (Job.mk K.op K.stage pos got).txn s.par = K.txn := by rw [h.par]; rfl
  refine ⟨pos, hc, by rw [htxn]; simpa using hin, ?_⟩
  exact (driverMove_of_job hj).trans (jobMove_pop (htxn.symm ▸ hle) h.inq)

/-- The last pop of a call in its last transaction returns the result. -/
theorem leads_done {y : Byte} {r : Result} (h : s.stands K (.idle v m [y] got) [] [])
    (hin : K.txn.inbound ≤ got.length + 1) (hf : K.finish (got ++ [y]) = .done r) :
    Leads s (·.ready K.par K.calls (K.results ++ [r]) v) := by
  obtain ⟨pos, hc, hn, hd⟩ := driverMove_last h hin
  rw [afterPop_done (s := { s with inq := [] }) hn hf] at hd
  exact .driver hd (.here ⟨⟨h.st, h.outq, rfl, h.bbusy, rfl, h.refusal⟩, h.bpend, h.par, hc,
    congrArg (· ++ [r]) h.results, h.view⟩)

/-- The last pop of `device_id`'s write begins its read. -/
theorem leads_again {y : Byte} {o : Op} (h : s.stands K (.idle v m [y] got) [] [])
    (hin : K.txn.inbound ≤ got.length + 1)
    (hf : K.finish (got ++ [y]) = .again { op := o, stage := .second, pos := 0, got := [] }) :
    Leads s (·.on { K with op := o, stage := .second } (.idle v m [] [])
      (Errand.txn { K with op := o, stage := .second }).bytes) := by
  obtain ⟨pos, hc, hn, hd⟩ := driverMove_last h hin
  rw [afterPop_again (s := { s with inq := [] }) hn hf] at hd
  exact .driver hd (.here ⟨[], _, rfl, h.par, h.results, h.refusal, ⟨0, hc ▸ .going _ rfl, rfl⟩, h.st, h.bbusy, h.bpend,
    h.view, h.count, h.outq, rfl⟩)

/-! ### One call -/

theorem ofNat_eq_zero_byte_iff (n : Nat) : BitVec.ofNat 8 n = 0 ↔ n % 256 = 0 := by
  rw [← BitVec.toNat_inj, BitVec.toNat_ofNat]
  rfl

theorem BusView.length_read (v : BusView) (n : Nat) : (v.read n).1.length = n := by
  induction n generalizing v with
  | zero => rfl
  | succ n ih => rw [BusView.read_succ, List.length_cons, ih]

theorem BusView.write_le (v : BusView) (bs : List Byte) : (v.write bs).1 ≤ bs.length := by
  induction bs generalizing v with
  | nil => exact Nat.le_refl _
  | cons b bs ih =>
    rw [BusView.write_cons]
    split_ifs
    · exact Nat.succ_le_succ (ih _)
    · exact Nat.zero_le _

/-- The status byte of a read or a poll is 0 exactly where the address byte is acknowledged. -/
theorem statusOk_of_one (a : Bool) (ds : List Byte) : statusOk ((if a then 0 else 1) :: ds) = a := by
  cases a <;> rfl

/-- A response of three bytes is decoded (R188). -/
theorem deviceIdOf_eq {ds : List Byte} (h : ds.length = 3) : deviceIdOf ds = some (deviceIdBytes ds) := by
  obtain ⟨b0, b1, b2, rfl⟩ := List.length_eq_three.1 h
  exact congrArg some (deviceIdDecode_eq b0 b1 b2)

theorem BusView.length_readTxn (v : BusView) (a : Addr) (n : Nat) (stop : Bool) : (v.readTxn a n stop).1.2.length = n :=
  BusView.length_read _ n

/-- The inbound bytes of a read transaction are as many as it pops (R193). -/
theorem length_of_response {a : Addr} {n : Nat} {stop : Bool} {y st : Byte}
    (hy : got ++ [y] = st :: (v.readTxn a n stop).1.2) : 1 + n = got.length + 1 := by
  have := congrArg List.length hy
  rw [List.length_append, List.length_singleton, List.length_cons, BusView.length_readTxn] at this
  exact (Nat.add_comm ..).trans this.symm

/-- `device_id`, its write acknowledged: its read (R187). -/
theorem leads_deviceIdRead {p : Params} {a : Addr} {cs : List Call} {rs : List Result} (hwf : p.wf = true)
    (h : s.on ⟨p, .deviceId a, .second, cs, rs⟩ (.idle v m [] []) (Txn.read 0x7C 3 p.deviceIdReadStop).bytes) :
    Leads s (·.ready p cs (rs ++ [.deviceId
      (if (v.readTxn 0x7C 3 p.deviceIdReadStop).1.1 then
        some (deviceIdBytes (v.readTxn 0x7C 3 p.deviceIdReadStop).1.2) else none)])
      (v.readTxn 0x7C 3 p.deviceIdReadStop).2) := by
  refine (leads_readTxn (n := 3) hwf rfl h).trans fun t ⟨m', y, got', hy, h⟩ => ?_
  refine leads_done h (Nat.le_of_eq (length_of_response hy)) ?_
  have hds := deviceIdOf_eq (BusView.length_readTxn v 0x7C 3 p.deviceIdReadStop)
  rw [hy]
  simp only [Errand.finish, Job.finish, statusOk_of_one, List.tail_cons]
  rw [show (3 : Count).toNat = 3 from rfl, hds]

/-- `device_id`: its write, and its read where that is acknowledged (R187, D12). -/
theorem leads_deviceId {p : Params} {a : Addr} {cs : List Call} {rs : List Result} (hwf : p.wf = true)
    (hstep : (Op.deviceId a).inStep p v)
    (h : s.on ⟨p, .deviceId a, .first, cs, rs⟩ (.idle v m [] [])
      (Txn.write 0x7C [targetByte p a] p.deviceIdWriteStop).bytes) :
    Leads s (·.ready p cs (rs ++ [((Op.deviceId a).outcome p v).1]) ((Op.deviceId a).outcome p v).2) := by
  rw [targetByte_eq] at h
  have hle : (v.writeTxn 0x7C [deviceIdTargetByte p a] p.deviceIdWriteStop).1 ≤ 2 := BusView.write_le _ _
  have hleft : ∀ b ∈ [deviceIdTargetByte p a].drop (v.writeTxn 0x7C [deviceIdTargetByte p a] p.deviceIdWriteStop).1,
      ignoredByte b := by
    intro b hb
    cases hk : (v.writeTxn 0x7C [deviceIdTargetByte p a] p.deviceIdWriteStop).1 with
    | zero =>
      rw [hk, List.drop_zero, List.mem_singleton] at hb
      exact hb ▸ hstep hk
    | succ k =>
      rw [hk, List.drop_succ_cons, List.drop_nil] at hb
      cases hb
  refine (leads_writeTxn hwf (by simp) hleft h).trans fun t ⟨m', h⟩ => ?_
  rw [Op.outcome]
  by_cases hw : (v.writeTxn 0x7C [deviceIdTargetByte p a] p.deviceIdWriteStop).1 = 2
  · rw [hw] at h
    simp only [hw, if_true]
    exact (leads_again h (Nat.le_refl _) rfl).trans fun u h => leads_deviceIdRead hwf h
  · simp only [hw, if_false]
    refine leads_done h (Nat.le_refl _) ?_
    have hst : BitVec.ofNat 8 (1 + [deviceIdTargetByte p a].length -
        (v.writeTxn 0x7C [deviceIdTargetByte p a] p.deviceIdWriteStop).1) ≠ 0 := by
      rw [ne_eq, ofNat_eq_zero_byte_iff, List.length_singleton]
      omega
    exact if_neg (ne_true_of_eq_false (decide_eq_false hst))

/-- The call being taken up comes to its end with its outcome. -/
theorem leads_call {p : Params} {c : Call} {cs : List Call} {rs : List Result} {o : Op} (hwf : p.wf = true)
    (ha : admitCall c = .ok o) (hstep : o.inStep p v) (h : s.ready p (c :: cs) rs v) :
    Leads s (·.ready p cs (rs ++ [(o.outcome p v).1]) (o.outcome p v).2) := by
  have h := h.on ha
  cases o with
  | write a d stop =>
    refine (leads_writeTxn hwf (dataFits_of_admitted ha a d stop rfl) hstep h).trans fun t ⟨m', h⟩ => ?_
    refine leads_done h (Nat.le_refl _) ?_
    exact congrArg (fun ok => Finish.done (.write ok)) (decide_eq_decide.2 (ofNat_eq_zero_byte_iff _))
  | read a n stop =>
    refine (leads_readTxn (n := n) hwf rfl h).trans fun t ⟨m', y, got', hy, h⟩ => ?_
    refine leads_done h (Nat.le_of_eq (length_of_response hy)) ?_
    rw [hy]
    simp only [Errand.finish, Job.finish, statusOk_of_one, List.tail_cons]
    rfl
  | poll a =>
    refine (leads_writeTxn (d := []) (stop := true) hwf (by simp) (by simp) h).trans fun t ⟨m', h⟩ => ?_
    refine leads_done h (Nat.le_refl _) (congrArg (fun ok => Finish.done (.poll ok)) ?_)
    refine (congrArg (fun b => statusOk [b]) (status_of_one _ _)).trans ?_
    exact (statusOk_of_one _ _).trans (beq_eq_decide ..)
  | deviceId a => exact leads_deviceId hwf hstep h

/-- Calls made one after the other come to their end with their outcomes. -/
theorem leads_calls {p : Params} (hwf : p.wf = true) (os : List Op) :
    ∀ {s : State} {cs : List Call} {rs : List Result} {v : BusView}, cs.map admitCall = os.map .ok →
      allInStep p v os → s.ready p cs rs v →
      Leads s (·.ready p [] (rs ++ (outcomes p v os).1) (outcomes p v os).2) := by
  induction os with
  | nil =>
    intro s cs rs v hcs _ h
    obtain rfl : cs = [] := by simpa using hcs
    exact .here (by rwa [outcomes, List.append_nil])
  | cons o os ih =>
    intro s cs rs v hcs ⟨hstep, hall⟩ h
    obtain ⟨c, cs, rfl, ha, hcs⟩ := List.map_eq_cons_iff.1 hcs
    refine (leads_call hwf ha hstep h).trans fun t h => (ih hcs hall h).trans fun u h => .here ?_
    rwa [List.append_assoc] at h

/-! ## Every schedule -/

/-- Between calls, with none waiting, the run is over (R252). -/
theorem State.ready.halted {p : Params} {rs : List Result} (h : s.ready p [] rs v) : s.halted = true := by
  obtain ⟨hst, hq, hi, hb, hj, hr⟩ := h.clean
  simp [State.halted, State.enabled, State.engineEnabled, hst, hb, State.outAvail, hq, driverMove, hj, h.calls]

theorem State.ready.runOver {p : Params} {rs : List Result} (h : s.ready p [] rs v) : s.runOver = true := by
  obtain ⟨hst, hq, hi, hb, hj, hr⟩ := h.clean
  simp [State.runOver, h.halted, State.settled, hst, hb, hq, hi, hj, h.calls]

theorem after_handshake {a : Agent} (hi : s.busInv) (hf : s.flightInv) :
    (s.after a).busInv ∧ (s.after a).flightInv := by
  cases a with
  | engine =>
    cases hb : s.bbusy with
    | true => rw [after_engine (engineStep_of_busy hi hf hb)]; exact ⟨hi, hf⟩
    | false => exact (engineStep_move (engineStep_after s)).handshake hb (hi.bpend_eq_none hb)
  | bus => exact (busStep_move s).handshake hi
  | driver => exact (driverStep_move s).handshake hi hf

theorem after_par (s : State) (a : Agent) : (s.after a).par = s.par := by
  cases a with
  | engine => exact (engineStep_move (engineStep_after s)).par
  | bus => exact (busStep_move s).par
  | driver => exact (driverStep_move s).par

/-- In mode `hold`, or where no schedule comes to a starved state. -/
def State.unstarved (s : State) : Prop :=
  s.par.starvedWrite = .hold ∨ ∀ turns t, runTurns turns s = .next t → t.starved = false

theorem State.unstarved.now (h : s.unstarved) : s.par.starvedWrite = .hold ∨ s.starved = false :=
  h.imp_right fun h => show (s.withTurns []).starved = false from h [] _ (runTurns_nil s)

/-- What no schedule comes to, none comes to after a step. -/
theorem State.unstarved.after (a : Agent) (h : s.unstarved) : (s.after a).unstarved := by
  refine h.imp (fun h => by rw [after_par]; exact h) fun h turns t ht => ?_
  have := h (a :: turns) _ (runTurns_eq _ s)
  rw [runTurns_eq] at ht
  cases ht
  exact this

/-- With the handshake in order and no starved step, no two agents race. -/
theorem orderly_unstarved : Orderly fun s => s.busInv ∧ s.flightInv ∧ s.unstarved where
  ordered := fun ⟨hi, hf, hu⟩ => ⟨hi, hf, hu.now⟩
  step := fun a ⟨hi, hf, hu⟩ =>
    have ⟨hi', hf'⟩ := after_handshake (a := a) hi hf
    ⟨hi', hf', hu.after a⟩

/-- Settles O60: one way leads through the calls, and where one way comes to a halted state every fair run does. -/
theorem callsInStep : Obligations.CallsInStep := by
  intro s os hclean hp hwf hcs hstep hmode
  have hs : s.ready s.par s.calls s.results s.busView := ⟨hclean, hp, rfl, rfl, rfl, rfl⟩
  obtain ⟨n, t, hpath, ht⟩ := leads_calls hwf os hcs hstep hs
  obtain ⟨-, -, -, hbusy, -, -⟩ := hclean
  have hb : s.busInv := by rw [State.busInv, hbusy, hp]; rfl
  have hf : s.flightInv := fun o ho => by simp [hp] at ho
  refine endsIn_of_path orderly_unstarved hpath ht.halted ⟨hb, hf, hmode⟩ fun l k => ?_
  have ht' : State.ready { t with turns := l, tick := k } s.par [] _ _ :=
    ⟨ht.clean, ht.bpend, ht.par, ht.calls, ht.results, ht.view⟩
  exact ⟨ht'.results, ht'.view, ht'.runOver, ht'.clean⟩

end Machine
end Sys2Proof
end

section
/-! PROOFS. A poll in every schedule (R186): its WRITE has one byte only, so that no schedule starves it; then O58. -/

namespace Sys2Proof
namespace Machine

variable {a : Addr} {l : List Byte} {s t : State}

/-- The bytes of a poll (R186). -/
def pollBytes (a : Addr) : List Byte := [0x01, 0x03, 0x00, 0x01, 0x04, BitVec.ofNat 8 (2 * a.toNat), 0x02]

theorem bytes_poll (a : Addr) : (Txn.write a [] true).bytes = pollBytes a := bytes_write a [] true

/-- The Driver has the bytes `l` of a poll still to push: it has the call before it, in progress, or behind it. -/
inductive PollLeft (a : Addr) (s : State) : List Byte → Prop where
  | waiting (hj : s.job = none) (hc : s.calls = [.poll a.toNat]) : PollLeft a s (pollBytes a)
  | going (pos : Nat) (got : List Byte) (hj : s.job = some ⟨.poll a, .first, pos, got⟩) (hc : s.calls = []) :
    PollLeft a s ((pollBytes a).drop pos)
  | behind (hj : s.job = none) (hc : s.calls = []) : PollLeft a s []

theorem admitCall_poll (a : Addr) : admitCall (.poll a.toNat) = .ok (.poll a) :=
  admitCall_poll_eq_ok.2 ⟨a, admitAddr_eq_ok.2 ⟨by omega, by simp⟩, rfl⟩

theorem PollLeft.congr (h : PollLeft a s l) (hd : sameDriver s t) : PollLeft a t l := by
  obtain ⟨hc', hj', -, -⟩ := hd
  cases h with
  | waiting hj hc => exact .waiting (hj'.trans hj) (hc'.trans hc)
  | going pos got hj hc => exact .going pos got (hj'.trans hj) (hc'.trans hc)
  | behind hj hc => exact .behind (hj'.trans hj) (hc'.trans hc)

/-- The call that runs is the poll. -/
theorem PollLeft.running {j : Job} {calls : List Call} (h : PollLeft a s l) (hr : Running s j calls) :
    calls = [] ∧ ∃ pos got, j = ⟨.poll a, .first, pos, got⟩ ∧ l = (pollBytes a).drop pos := by
  cases h with
  | waiting hj hc =>
    cases hr with
    | going _ hj' => cases hj.symm.trans hj'
    | starting _ _ _ _ hc' ha =>
      cases hc.symm.trans hc'
      cases (admitCall_poll a).symm.trans ha
      exact ⟨rfl, 0, [], rfl, rfl⟩
  | going pos got hj hc =>
    cases hr with
    | going _ hj' => cases hj.symm.trans hj'; exact ⟨hc, pos, got, rfl, rfl⟩
    | starting _ _ _ hj' => cases hj.symm.trans hj'
  | behind hj hc =>
    cases hr with
    | going _ hj' => cases hj.symm.trans hj'
    | starting _ _ _ _ hc' => cases hc.symm.trans hc'

/-- The Driver moves the bytes of the poll on, in order. -/
theorem PollLeft.driver (h : PollLeft a s l) (m : DriverMove s t) : ∃ l', PollLeft a t l' ∧ t.outq ++ l' = s.outq ++ l := by
  cases m with
  | hold => exact ⟨l, h, rfl⟩
  | refuse c rest r hj hc ha =>
    cases h with
    | waiting _ hc' =>
      cases hc'.symm.trans hc
      cases (admitCall_poll a).symm.trans ha
    | going _ _ hj' => cases hj'.symm.trans hj
    | behind _ hc' => cases hc'.symm.trans hc
  | push j calls b hrun hb =>
    obtain ⟨rfl, pos, got, rfl, rfl⟩ := h.running hrun
    refine ⟨_, .going (pos + 1) got rfl rfl, ?_⟩
    have hb : (pollBytes a)[pos]? = some b := by rw [← bytes_poll]; exact hb
    obtain ⟨hlt, rfl⟩ := List.getElem?_eq_some_iff.1 hb
    rw [List.drop_eq_getElem_cons hlt, List.append_assoc]
    rfl
  | pop j calls b rest hrun =>
    obtain ⟨rfl, pos, got, rfl, rfl⟩ := h.running hrun
    exact ⟨_, .going pos (got ++ [b]) rfl rfl, rfl⟩
  | done j calls b rest r hrun hp =>
    obtain ⟨rfl, pos, got, rfl, rfl⟩ := h.running hrun
    have hp : (pollBytes a).length ≤ pos := by rw [← bytes_poll]; exact hp
    exact ⟨[], .behind rfl rfl, by rw [List.drop_eq_nil_of_le hp]⟩
  | again j j' calls b rest hrun _ _ _ hf =>
    obtain ⟨rfl, pos, got, rfl, rfl⟩ := h.running hrun
    cases hf

/-- Where the Engine is in a poll, with the bytes that are still to come. -/
def pollPoint (a : Addr) (s : State) (rest : List Byte) : Prop :=
  match s.st with
  | .idle =>
    rest = pollBytes a ∨ rest = (pollBytes a).drop 1 ∨ (rest = (pollBytes a).drop 4 ∧ s.count = 1) ∨
      rest = (pollBytes a).drop 6 ∨ rest = []
  | .decode =>
    (s.op = 0x01 ∧ rest = (pollBytes a).drop 1) ∨ (s.op = 0x03 ∧ rest = (pollBytes a).drop 2) ∨
      (s.op = 0x04 ∧ rest = (pollBytes a).drop 5 ∧ s.count = 1) ∨ (s.op = 0x02 ∧ rest = [])
  | .countHigh => rest = (pollBytes a).drop 2
  | .countLow => rest = (pollBytes a).drop 3 ∧ countHi s.count = 0
  | .writeFirst => rest = (pollBytes a).drop 5 ∧ s.count = 1
  | .write => rest = (pollBytes a).drop 6 ∧ s.count = 1
  | .report => rest = (pollBytes a).drop 6
  | .readFirst => False
  | .read => False

theorem pollPoint_decode {rest : List Byte} (hs : s.st = .decode) (h : pollPoint a s rest) (e : engineStep s = .next t) :
    t.outq = s.outq ∧ pollPoint a t rest := by
  cases (decodeBranches s hs).2.symm.trans e
  simp only [pollPoint, hs] at h
  obtain ⟨ho, h⟩ | ⟨ho, h⟩ | ⟨ho, h, hc⟩ | ⟨ho, h⟩ := h
  · simp [ho, pollPoint, h]
  · simp [ho, pollPoint, h]
  · simp [ho, pollPoint, h, hc]
  · simp [ho, pollPoint, h]

/-- Each Engine step is at the next point of the poll. -/
theorem pollPoint_engine (h : pollPoint a s (s.outq ++ l)) (e : engineStep s = .next t) : pollPoint a t (t.outq ++ l) := by
  by_cases hd : s.st = .decode
  · obtain ⟨ho, h⟩ := pollPoint_decode hd h e
    rwa [ho]
  cases engineStep_move e with
  | hold => exact h
  | start hs | stop hs | operand hs | nothing hs | toWrite hs | toRead hs => exact absurd hs hd
  | fetch b rest hs _ ho =>
    simp only [pollPoint, hs, ho, pollBytes, List.cons_append, List.drop_succ_cons, List.drop_zero, List.cons.injEq] at h ⊢
    rcases h with ⟨rfl, h⟩ | ⟨rfl, h⟩ | ⟨⟨rfl, h⟩, hc⟩ | ⟨rfl, h⟩ | h
    · exact .inl ⟨rfl, h⟩
    · exact .inr (.inl ⟨rfl, h⟩)
    · exact .inr (.inr (.inl ⟨rfl, h, hc⟩))
    · exact .inr (.inr (.inr ⟨rfl, h⟩))
    · cases h
  | countHigh b rest hs ho =>
    simp only [pollPoint, hs, ho, pollBytes, List.cons_append, List.drop_succ_cons, List.drop_zero, List.cons.injEq] at h ⊢
    obtain ⟨rfl, h⟩ := h
    exact ⟨h, countHi_withCountHi ..⟩
  | countLow b rest hs ho =>
    simp only [pollPoint, hs, ho, pollBytes, List.cons_append, List.drop_succ_cons, List.drop_zero, List.cons.injEq] at h ⊢
    obtain ⟨⟨rfl, h⟩, hc⟩ := h
    exact .inr (.inr (.inl ⟨h, by rw [hc]; rfl⟩))
  | firstByte b rest hs ho =>
    simp only [pollPoint, hs, ho, pollBytes, List.cons_append, List.drop_succ_cons, List.drop_zero, List.cons.injEq] at h ⊢
    obtain ⟨⟨rfl, h⟩, hc⟩ := h
    exact ⟨h, hc⟩
  | nak hs | lastAck hs =>
    simp only [pollPoint, hs] at h ⊢
    exact h.1
  | nextByte _ _ hs _ _ hc | starved hs _ _ hc =>
    simp only [pollPoint, hs] at h
    exact absurd h.2 hc
  | report hs =>
    simp only [pollPoint, hs] at h ⊢
    exact .inr (.inr (.inr (.inl h)))
  | firstRead hs | lastRead hs | nextRead hs => simp [pollPoint, hs] at h

/-- A poll is going on, or has ended, and nothing else. -/
def State.polling (a : Addr) (s : State) : Prop := ∃ l, PollLeft a s l ∧ pollPoint a s (s.outq ++ l)

theorem pollPoint.congr {rest : List Byte} (h : pollPoint a s rest) (he : sameEngine s t) : pollPoint a t rest := by
  obtain ⟨h1, h2, h3, -⟩ := he
  simpa only [pollPoint, h1, h2, h3] using h

theorem polling_after (b : Agent) (h : s.polling a) : (s.after b).polling a := by
  obtain ⟨l, hl, hp⟩ := h
  cases b with
  | engine =>
    have e := engineStep_after s
    exact ⟨l, hl.congr (engineStep_move e).driver, pollPoint_engine hp e⟩
  | bus =>
    have hm := busStep_move s
    exact ⟨l, hl.congr hm.driver, by rw [after_bus, hm.channels.1]; exact hp.congr hm.engine⟩
  | driver =>
    have hm := driverStep_move s
    obtain ⟨l', hl', he⟩ := hl.driver hm
    exact ⟨l', hl', by rw [after_driver, he]; exact hp.congr hm.engine⟩

theorem polling_afterAll (turns : List Agent) (h : s.polling a) : (s.afterAll turns).polling a := by
  induction turns generalizing s with
  | nil => exact h
  | cons b turns ih => exact ih (polling_after b h)

/-- The one byte of a poll's WRITE leaves nothing to wait for. -/
theorem State.polling.not_starved (h : s.polling a) : s.starved = false := by
  obtain ⟨l, -, hp⟩ := h
  by_cases hs : s.st = .write
  · simp only [pollPoint, hs] at hp
    simp [State.starved, hp.2]
  · simp [State.starved, hs]

/-- Settles O58: a poll is a call in step that no schedule starves. -/
theorem pollTellsTheAcknowledgement : Obligations.PollTellsTheAcknowledgement := by
  intro s a ack as hclean hp hwf hcalls hacks
  have hpoll : s.polling a := by
    obtain ⟨hs, hq, -, -, hj, -⟩ := hclean
    refine ⟨_, .waiting hj hcalls, ?_⟩
    simp only [pollPoint, hs, hq]
    exact .inl rfl
  have hmode : ∀ turns t, runTurns turns s = .next t → t.starved = false := by
    intro turns t ht
    rw [runTurns_eq] at ht
    cases ht
    exact (polling_afterAll turns hpoll).not_starved
  have hadm : s.calls.map admitCall = [Op.poll a].map .ok := by
    rw [hcalls]
    exact congrArg (fun x => [x]) (admitCall_poll a)
  obtain ⟨n, hn⟩ := callsInStep s [.poll a] hclean hp hwf hadm ⟨trivial, trivial⟩ (.inr hmode)
  refine ⟨n, fun rounds hlen hfair => ?_⟩
  obtain ⟨t, ht, hres, hview, hover, hend⟩ := hn rounds hlen hfair
  have hout : outcomes s.par s.busView [.poll a] =
      ([.poll ack], ⟨s.blog ++ [.start, .write (BitVec.ofNat 8 (2 * a.toNat)) ack, .stop], as, s.reads⟩) := by
    simp only [outcomes, Op.outcome, BusView.writeTxn, BusView.write_cons, BusView.ack, BusView.after, BusView.condition,
      State.busView, hacks, List.headD_cons, List.tail_cons]
    cases ack <;> simp [BusView.write, BusView.finish, BusView.condition]
  rw [hout] at hres hview
  exact ⟨t, ht, hres, congrArg BusView.log hview, hover, hend⟩

end Machine
end Sys2Proof
end
